-- ==== Sys2Proof/Word.lean ====
section
/-! DEFINITION. The word types of the block: the fixed-width fields of a command word and of a response
(30_encoding.md rules R60 and R65). The W-bit registers and operands are natural numbers below `2 ^ W`
(30_encoding.md rule R64), since `W` is a parameter of the build. -/

namespace Sys2Proof

/-- One byte of the byte channel, bit 7 the most significant (30_encoding.md rule R67). -/
abbrev Byte := BitVec 8

/-- A command word `CMD` (30_encoding.md rule R60). -/
abbrev CmdWord := BitVec 32

/-- The `OP` field, bits 31:24 of a command word (30_encoding.md rule R60). -/
abbrev OpField := BitVec 8

/-- The `LEN` field, bits 23:0 of a command word (30_encoding.md rules R60 and R62). -/
abbrev LenField := BitVec 24

/-- The `VAL` field of a response (30_encoding.md rule R65). -/
abbrev RespVal := BitVec 64

/-- The `CODE` field of a response (30_encoding.md rule R65). -/
abbrev CodeField := BitVec 4

end Sys2Proof
end

