-- ==== Sys2Proof/Syntax.lean ====
section
/-! DEFINITION. The commands of the block (30_encoding.md rules R61 and R72) and what the command channel
carries for one of them (20_memory.md rules R40 and R41). -/

namespace Sys2Proof

/-- The commands, one constructor per row of the opcode table. The first six are the commands of
30_encoding.md rule R61; the last three are the pseudo-commands of rule R72, spellings of FILL words that
have no encoding of their own (assumption 8). LOAD holds the values that stand on the ports OPN and OPX when it is
accepted (20_memory.md rule R41: word and operands are one transaction; assumption 13). -/
inductive Instr where
  /-- `LOAD n, x0` (40_construction.md rule R80): `n` is on OPN, `x0` on OPX. -/
  | load (n x0 : Nat)
  /-- `STAT` (40_construction.md rule R84). -/
  | stat
  /-- `BIT` (41_bitgenerator.md rule R101). -/
  | bit
  /-- `FILL len` (42_facade.md rule R121). -/
  | fill (len : LenField)
  /-- `U32` (42_facade.md rule R123). -/
  | u32
  /-- `U64` (42_facade.md rule R124). -/
  | u64
  /-- `BYTE`, a spelling of `FILL 1` (42_facade.md rule R127). -/
  | byte
  /-- `TRYFILL len`, a spelling of `FILL len` (42_facade.md rule R126). -/
  | tryfill (len : LenField)
  /-- `NOPFILL`, a spelling of `FILL 0` (42_facade.md rule R127). -/
  | nopfill
  deriving DecidableEq, Repr

/-- One transaction of the command channel: the command word with what the two operand ports carry
(20_memory.md rule R40). -/
structure Command where
  word : CmdWord
  /-- The value on port OPN (30_encoding.md rule R63). -/
  opn : Nat
  /-- The value on port OPX (30_encoding.md rule R63). -/
  opx : Nat
  deriving DecidableEq, Repr

end Sys2Proof
end

