-- ==== Sys2Proof/Decode.lean ====
section
/-! DEFINITION. The decoder, total on every command, and the encoder (30_encoding.md rules R60, R61, R68, R72). -/

namespace Sys2Proof

/-- The core command an instruction stands for (30_encoding.md rule R72, the column "Expansion"). -/
def Instr.expand : Instr → Instr
  | .load n x0 => .load n x0
  | .stat => .stat
  | .bit => .bit
  | .fill len => .fill len
  | .u32 => .u32
  | .u64 => .u64
  | .byte => .fill 1
  | .tryfill len => .fill len
  | .nopfill => .fill 0

/-- The six commands of 30_encoding.md rule R61, as opposed to the pseudo-commands of rule R72. -/
def Instr.isCore : Instr → Bool
  | .load _ _ => true
  | .stat => true
  | .bit => true
  | .fill _ => true
  | .u32 => true
  | .u64 => true
  | .byte => false
  | .tryfill _ => false
  | .nopfill => false

/-- Why a command word is illegal (30_encoding.md rule R68). Both causes raise `ERR_ILLEGAL_CMD`. -/
inductive IllegalCause where
  /-- Case (a): `OP` is 0x00 or 0x07 to 0xFF. -/
  | reservedOp (op : OpField)
  /-- Case (b): `OP` is 0x01, 0x02, 0x03, 0x05 or 0x06 and `LEN` is not zero. -/
  | nonzeroLen (op : OpField) (len : LenField)
  deriving DecidableEq, Repr

/-- `OP`, bits 31:24 (30_encoding.md rule R60). -/
def opField (w : CmdWord) : OpField := w.extractLsb' 24 8

/-- `LEN`, bits 23:0 (30_encoding.md rule R60). -/
def lenField (w : CmdWord) : LenField := w.extractLsb' 0 24

/-- A command whose `LEN` must be zero (30_encoding.md rule R62). -/
def requireZeroLen (w : CmdWord) (i : Instr) : Except IllegalCause Instr :=
  if lenField w = 0 then .ok i else .error (.nonzeroLen (opField w) (lenField w))

/-- The opcode map (30_encoding.md rule R61). Whether a command is illegal is decided from the word alone
(rule R68); the ports are read only as the operands of LOAD (rule R63). -/
def decode (c : Command) : Except IllegalCause Instr :=
  match (opField c.word).toNat with
  | 0x01 => requireZeroLen c.word (.load c.opn c.opx)
  | 0x02 => requireZeroLen c.word .stat
  | 0x03 => requireZeroLen c.word .bit
  | 0x04 => .ok (.fill (lenField c.word))
  | 0x05 => requireZeroLen c.word .u32
  | 0x06 => requireZeroLen c.word .u64
  | _ => .error (.reservedOp (opField c.word))

/-- The command word of an opcode and a length: `OP` in bits 31:24, `LEN` in bits 23:0 (30_encoding.md rule R60). -/
def commandWord (op : OpField) (len : LenField) : CmdWord := op ++ len

/-- The command word of each instruction (30_encoding.md rules R61 and R72). -/
def encodeWord : Instr → CmdWord
  | .load _ _ => commandWord 0x01 0
  | .stat => commandWord 0x02 0
  | .bit => commandWord 0x03 0
  | .fill len => commandWord 0x04 len
  | .u32 => commandWord 0x05 0
  | .u64 => commandWord 0x06 0
  | .byte => commandWord 0x04 1
  | .tryfill len => commandWord 0x04 len
  | .nopfill => commandWord 0x04 0

/-- The transaction that presents an instruction. Only LOAD has operands; the ports of every other command
are ignored (30_encoding.md rule R63) and zero here. -/
def encode (i : Instr) : Command :=
  match i with
  | .load n x0 => ⟨encodeWord (.load n x0), n, x0⟩
  | .stat => ⟨encodeWord .stat, 0, 0⟩
  | .bit => ⟨encodeWord .bit, 0, 0⟩
  | .fill len => ⟨encodeWord (.fill len), 0, 0⟩
  | .u32 => ⟨encodeWord .u32, 0, 0⟩
  | .u64 => ⟨encodeWord .u64, 0, 0⟩
  | .byte => ⟨encodeWord .byte, 0, 0⟩
  | .tryfill len => ⟨encodeWord (.tryfill len), 0, 0⟩
  | .nopfill => ⟨encodeWord .nopfill, 0, 0⟩

/-- The command whose word is the low `nbits` bits of `w`, with zeros on both ports. -/
def tableCommand (nbits w : Nat) : Command := ⟨BitVec.ofNat 32 (w % 2 ^ nbits), 0, 0⟩

/-- What the decoder reads from a word of the opcode table; `none` where the word is illegal. -/
def decodeTableWord (nbits w : Nat) : Option Instr :=
  match decode (tableCommand nbits w) with
  | .ok i => some i
  | .error _ => none

end Sys2Proof
end

