-- ==== Sys2Proof/Config.lean ====
section
/-! DEFINITION. What a build of the block fixes, and the values the spec leaves open. A constant marked
`opaque` has no body: no proof can learn its value, so a claim proved of the model holds for every value. -/

namespace Sys2Proof.Config

/-- The public exponent, hardwired (00_scope.md rule R7, 10_state.md rule R23). -/
def E : Nat := 65537

/-- `LEN_MAX`, the largest byte count one FILL carries (30_encoding.md rule R62). -/
def lenMax : Nat := 2 ^ 24 - 1

/-- How many 32-bit pieces beyond the first the registers of this build have: the OPEN parameter `W` of
00_scope.md rule R6, written so that `W` is a positive multiple of 32. DESIGN CHOICE, safe: assumption 1. -/
opaque extraPieces : Nat

/-- The width `W` of the build that `State.reset` is the reset state of (00_scope.md rule R6). -/
def width : Nat := 32 * (extraPieces + 1)

/-- What register N holds after a reset, as a function of how many resets came before and of what N held:
unspecified (10_state.md rule R32), and not promised to be erased (70_reset_and_hazards.md rule R182).
DESIGN CHOICE: assumption 2. -/
opaque resetN : Nat → Nat → Nat

/-- What register X holds after a reset, as `resetN` says it of N. DESIGN CHOICE: assumption 2. -/
opaque resetX : Nat → Nat → Nat

/-- How many bytes a command abandoned by a reset had already delivered (70_reset_and_hazards.md rule R181:
the host cannot know), as a function of how many resets came before, of the width, of N and X, on which the
duration of a command may depend (rule R193), and of the command word. DESIGN CHOICE: assumption 6. -/
opaque bytesBeforeReset : Nat → Nat → Nat → Nat → Nat → Nat

end Sys2Proof.Config
end

