-- ==== Sys2Proof/Machine/State.lean ====
section
/-! DEFINITION. The state of the block (10_state.md), the two ends of its channels (20_memory.md rule R40),
the outcomes a step may have besides a next state, and the state after reset. -/

namespace Sys2Proof.Machine

/-- The four error causes of the block (60_exceptions.md rule R150). -/
inductive CmdError where
  /-- `ERR_MODULUS_INVARIANT` (60_exceptions.md rule R151). -/
  | modulusInvariant
  /-- `ERR_SEED_RANGE` (60_exceptions.md rule R152). -/
  | seedRange
  /-- `ERR_NOT_SEEDED` (60_exceptions.md rule R153). -/
  | notSeeded
  /-- `ERR_ILLEGAL_CMD` (60_exceptions.md rule R154). -/
  | illegalCmd
  deriving DecidableEq, Repr

/-- The status of a response: exactly five values (60_exceptions.md rule R150). -/
inductive Status where
  | ok
  | error (e : CmdError)
  deriving DecidableEq, Repr

/-- One response: status and value (30_encoding.md rule R65). -/
structure Response where
  status : Status
  val : RespVal
  deriving DecidableEq, Repr

/-- What leaves the engine: a beat of the byte channel or a response (20_memory.md rule R40). -/
inductive OutEvent where
  | byte (b : Byte)
  | response (r : Response)
  deriving DecidableEq, Repr

/-- What the host can do to the block: present a command (20_memory.md rule R41), assert reset between
commands (70_reset_and_hazards.md rule R180), or assert it while a command is in flight (rule R181). -/
inductive HostMove where
  | command (c : Command)
  | reset
  | resetDuring (c : Command)
  deriving DecidableEq, Repr

/-- Why the machine stops. The block has no stop: every error is a response (60_exceptions.md rule R158),
no command hangs (70_reset_and_hazards.md rule R192), so the type has no constructor and no one raises a
fault. Safe: nothing the spec gives an effect ends in one. Assumption 14. -/
inductive Fault
  deriving DecidableEq, Repr

/-- Why a step is refused. -/
inductive Refusal where
  /-- Raised by an arm of `exec` whose instruction has no meaning yet. No arm is left so. Safe: a refusal
  only makes claims unprovable. -/
  | notModelled (mnemonic : String)
  deriving DecidableEq, Repr

/-- The state of the block. `n`, `x` and `seeded` are the registers of 10_state.md; `width` is the build's
parameter, which no command changes; `pending`, `sent` and `resets` are the model's own fields. -/
structure State where
  /-- `W`, the width in bits of N, X, OPN and OPX (00_scope.md rule R6). Assumption 1. -/
  width : Nat
  /-- Register N, the modulus (10_state.md rule R20). -/
  n : Nat
  /-- Register X, the plain residue (10_state.md rule R21). Assumption 9. -/
  x : Nat
  /-- Flag SEEDED (10_state.md rule R22). -/
  seeded : Bool
  /-- The host's moves that the engine has not taken yet, oldest first: a command waits here, unaccepted,
  until the engine is idle (20_memory.md rule R41). Assumption 4. -/
  pending : List HostMove
  /-- All that has left on the byte and response channels, oldest first (20_memory.md rule R50). Assumption 5. -/
  sent : List OutEvent
  /-- How many resets the block has had: the argument of the unspecified values of `Config`. Assumption 12. -/
  resets : Nat
  deriving DecidableEq, Repr

/-- The state of a block of width `w` right after its first reset (10_state.md rule R32,
70_reset_and_hazards.md rule R180): SEEDED is 0, N and X hold unspecified W-bit values, nothing is pending. -/
def State.resetAt (w : Nat) : State where
  width := w
  n := Config.resetN 0 0 % 2 ^ w
  x := Config.resetX 0 0 % 2 ^ w
  seeded := false
  pending := []
  sent := []
  resets := 1

/-- The machine right after reset. -/
def State.reset : State := State.resetAt Config.width

end Sys2Proof.Machine
end

