-- ==== Sys2Proof/Machine/Flags.lean ====
section
/-! DEFINITION. The one flag, SEEDED, and the one-bit values of responses (10_state.md rules R22, R30, R31).
No command sets a flag as a side effect other than LOAD setting SEEDED (rule R30). -/

namespace Sys2Proof.Machine

/-- `zext_64` of one bit: bit 0 is the bit, bits 63:1 are zero (30_encoding.md rule R65). -/
def bitValue (b : Bool) : RespVal := if b then 1 else 0

/-- The word STAT returns: bit 0 is SEEDED, bits 63:1 are zero (10_state.md rule R31). -/
def statusWord (s : State) : RespVal := bitValue s.seeded

/-- The 4-bit number of each status (60_exceptions.md rule R150); 5 to 15 are never produced. -/
def Status.code : Status → CodeField
  | .ok => 0
  | .error .modulusInvariant => 1
  | .error .seedRange => 2
  | .error .notSeeded => 3
  | .error .illegalCmd => 4

end Sys2Proof.Machine
end

