-- ==== Sys2Proof/Machine/Operands.lean ====
section
/-! DEFINITION. The operand forms: the two W-bit ports of LOAD and the `LEN` immediate of FILL
(30_encoding.md rules R62 and R63), and the checks LOAD makes of its operands (40_construction.md rule R81). -/

namespace Sys2Proof.Machine

/-- What a port of `w` wires carries of a value: its low `w` bits (30_encoding.md rules R63 and R64). A value
that fits the port is carried whole. Assumption 3. -/
def portValue (w v : Nat) : Nat := v % 2 ^ w

/-- The byte count of a FILL: `LEN`, unsigned, not scaled (30_encoding.md rule R62). -/
def byteCount (len : LenField) : Nat := len.toNat

/-- The modulus check of LOAD fails: `n[0] == 0 or n <= 1` (40_construction.md rules R80 and R81). -/
abbrev badModulus (n : Nat) : Prop := n % 2 = 0 ∨ n ≤ 1

/-- The seed check of LOAD fails: `x0 >= n` (40_construction.md rules R80 and R81). -/
abbrev badSeed (n x0 : Nat) : Prop := n ≤ x0

end Sys2Proof.Machine
end

