-- ==== Sys2Proof/Machine/Ops.lean ====
section
/-! DEFINITION. The named updates of the state and the shared operations of the commands: responding, raising
an error, emitting a byte, the one transition `AdvanceAndExtract`, the byte packer, the word assembly, and
reset. The block has no memory (20_memory.md rule R40), so there is no memory operation. -/

namespace Sys2Proof.Machine

/-! ### Updates of the state -/

/-- `X <- v`. -/
def State.setX (s : State) (v : Nat) : State := { s with x := v }

/-- `N <- n; X <- x0; SEEDED <- 1`: a generator instance begins (40_construction.md rule R80). -/
def State.loadInstance (s : State) (n x0 : Nat) : State := { s with n := n, x := x0, seeded := true }

/-- Something leaves on the byte or the response channel, after all that left before it (20_memory.md rule R50). -/
def State.send (s : State) (o : OutEvent) : State := { s with sent := s.sent ++ [o] }

/-- The moves the engine has still to take. -/
def State.setPending (s : State) (l : List HostMove) : State := { s with pending := l }

/-! ### Ends of a command -/

/-- `respond(code, val)` (00_scope.md section 4, 30_encoding.md rule R65). -/
def respond (st : Status) (v : RespVal) (s : State) : State := s.send (.response ⟨st, v⟩)

/-- `raise <Error>`: the block's form of taking an exception. The command ends with the error's code and value 0;
no register is written and no byte is emitted (60_exceptions.md rule R155). Nothing is saved and no mode
changes (rule R158), so there is no return from it: the engine is idle and takes the next command (rule R159). -/
def raise (e : CmdError) (s : State) : State := respond (.error e) 0 s

/-- `emit_byte(v)` (00_scope.md section 4, 20_memory.md rule R42). -/
def emitByte (b : Byte) (s : State) : State := s.send (.byte b)

/-- A command that needs a generator instance: with SEEDED = 0 it raises `ERR_NOT_SEEDED` (60_exceptions.md
rule R153), else it runs. -/
def whenSeeded (s : State) (run : State → State) : Host.Outcome State Fault Refusal :=
  if s.seeded then .next (run s) else .next (raise .notSeeded s)

/-! ### The recurrence -/

/-- `ModExp(x, e, n)`: the power over the unbounded integers, reduced once (00_scope.md rule R10). -/
def modExp (x e n : Nat) : Nat := x ^ e % n

/-- `AdvanceAndExtract()`: bit 0 of X, taken before X is replaced by `ModExp(X, 65537, N)`
(41_bitgenerator.md rules R100 and R102). -/
def advanceAndExtract (s : State) : Bool × State := (s.x.testBit 0, s.setX (modExp s.x Config.E s.n))

/-! ### The byte packer and the word assembly -/

/-- `ACC = ((ACC << 1) | b)[7:0]` (42_facade.md rule R120). -/
def shiftIn (acc : Byte) (b : Bool) : Byte := (acc <<< 1) ||| (if b then 1 else 0)

/-- One turn of the loop of `PackByte()`: the accumulator takes the next bit (42_facade.md rule R120). -/
def packTurn (p : Byte × State) : Byte × State :=
  (shiftIn p.1 (advanceAndExtract p.2).1, (advanceAndExtract p.2).2)

/-- `PackByte()`: `ACC` starts at 0 and takes exactly 8 bits (42_facade.md rule R120). -/
def packByte (s : State) : Byte × State := packTurn^[8] (0, s)

/-- One turn of the loop of FILL: `emit_byte(PackByte())` (42_facade.md rule R121). -/
def fillTurn (s : State) : State := emitByte (packByte s).1 (packByte s).2

/-- The loop of FILL: `k` turns (42_facade.md rule R121). -/
def fillBytes (k : Nat) (s : State) : State := fillTurn^[k] s

/-- One turn of the loop of U32 and U64: the next byte goes into `BUF`, after those before it
(42_facade.md rules R123 and R124). -/
def drawTurn (p : List Byte × State) : List Byte × State := (p.1 ++ [(packByte p.2).1], (packByte p.2).2)

/-- The loop of U32 and U64: `k` turns, from an empty `BUF` (42_facade.md rules R123 and R124). -/
def drawBytes (k : Nat) (s : State) : List Byte × State := drawTurn^[k] ([], s)

/-- `LE(B) = sum(B_i * 2^(8 i))`, the first byte least significant (42_facade.md rule R125, 20_memory.md rule R44). -/
def littleEndian : List Byte → Nat
  | [] => 0
  | b :: bs => b.toNat + 2 ^ 8 * littleEndian bs

/-- FILL of `k` bytes on a seeded block: the bytes, then `respond(OK, 0)` (42_facade.md rule R121). -/
def runFill (k : Nat) (s : State) : State := respond .ok 0 (fillBytes k s)

/-- U32 and U64 on a seeded block: the little-endian word of the next `k` bytes, zero-extended
(42_facade.md rules R123 and R124). -/
def runWord (k : Nat) (s : State) : State :=
  respond .ok (BitVec.ofNat 64 (littleEndian (drawBytes k s).1)) (drawBytes k s).2

/-! ### Reset -/

/-- Reset: SEEDED is cleared, N and X become unspecified W-bit values, no command is in flight; what was sent
stays sent (70_reset_and_hazards.md rule R180). After power returns the block is as after reset
(60_exceptions.md rule R166). Assumptions 2 and 12. -/
def resetBlock (s : State) : State :=
  { s with
    n := Config.resetN s.resets s.n % 2 ^ s.width
    x := Config.resetX s.resets s.x % 2 ^ s.width
    seeded := false
    resets := s.resets + 1 }

end Sys2Proof.Machine
end

