-- ==== Sys2Proof/Machine/BitGenerator.lean ====
section
/-! DEFINITION. BIT (41_bitgenerator.md). -/

namespace Sys2Proof.Machine

/-- BIT: one `AdvanceAndExtract()`, its bit as the value (41_bitgenerator.md rule R101). -/
def execBit (s : State) : Host.Outcome State Fault Refusal :=
  whenSeeded s fun s => respond .ok (bitValue (advanceAndExtract s).1) (advanceAndExtract s).2

end Sys2Proof.Machine
end

