-- ==== Sys2Proof/Machine/Construction.lean ====
section
/-! DEFINITION. LOAD and STAT (40_construction.md). -/

namespace Sys2Proof.Machine

/-- LOAD: the modulus check, then the seed check, then the new instance (40_construction.md rules R80 to R83).
It is legal whether SEEDED is 0 or 1 and checks nothing else. -/
def execLoad (n x0 : Nat) (s : State) : Host.Outcome State Fault Refusal :=
  if badModulus (portValue s.width n) then .next (raise .modulusInvariant s)
  else if badSeed (portValue s.width n) (portValue s.width x0) then .next (raise .seedRange s)
  else .next (respond .ok 0 (s.loadInstance (portValue s.width n) (portValue s.width x0)))

/-- STAT: SEEDED in bit 0, never an error (40_construction.md rule R84). -/
def execStat (s : State) : Host.Outcome State Fault Refusal :=
  .next (respond .ok (statusWord s) s)

end Sys2Proof.Machine
end

