-- ==== Sys2Proof/Machine/Facade.lean ====
section
/-! DEFINITION. FILL, U32, U64 and the three spellings of FILL words (42_facade.md). -/

namespace Sys2Proof.Machine

/-- FILL (42_facade.md rules R121 and R122). -/
def execFill (len : LenField) (s : State) : Host.Outcome State Fault Refusal :=
  whenSeeded s (runFill (byteCount len))

/-- U32: the word of the next four bytes (42_facade.md rule R123). -/
def execU32 (s : State) : Host.Outcome State Fault Refusal := whenSeeded s (runWord 4)

/-- U64: the word of the next eight bytes (42_facade.md rule R124). -/
def execU64 (s : State) : Host.Outcome State Fault Refusal := whenSeeded s (runWord 8)

/-- BYTE is `FILL 1` (42_facade.md rule R127). -/
def execByte (s : State) : Host.Outcome State Fault Refusal := whenSeeded s (runFill 1)

/-- TRYFILL is FILL (42_facade.md rule R126). -/
def execTryfill (len : LenField) (s : State) : Host.Outcome State Fault Refusal :=
  whenSeeded s (runFill (byteCount len))

/-- NOPFILL is `FILL 0` (42_facade.md rules R122 and R127). -/
def execNopfill (s : State) : Host.Outcome State Fault Refusal := whenSeeded s (runFill 0)

end Sys2Proof.Machine
end

