-- ==== Sys2Proof/Machine/Dispatch.lean ====
section
/-! DEFINITION. One arm per command: its meaning. -/

namespace Sys2Proof.Machine

def exec (i : Instr) (s : State) : Host.Outcome State Fault Refusal :=
  match i with
  | .load n x0 => Sys2Proof.Machine.execLoad n x0 s
  | .stat => Sys2Proof.Machine.execStat s
  | .bit => Sys2Proof.Machine.execBit s
  | .fill len => Sys2Proof.Machine.execFill len s
  | .u32 => Sys2Proof.Machine.execU32 s
  | .u64 => Sys2Proof.Machine.execU64 s
  | .byte => Sys2Proof.Machine.execByte s
  | .tryfill len => Sys2Proof.Machine.execTryfill len s
  | .nopfill => Sys2Proof.Machine.execNopfill s

end Sys2Proof.Machine
end

