-- ==== Sys2Proof/Machine/Channel.lean ====
section
/-! DEFINITION. The command channel: accepting a command, and abandoning one in flight when reset is asserted
(20_memory.md rule R41, 70_reset_and_hazards.md rule R181). -/

namespace Sys2Proof.Machine

/-- A command accepted: an illegal word raises `ERR_ILLEGAL_CMD` before SEEDED or the operands are looked at
(30_encoding.md rule R68, 60_exceptions.md rule R157); every other word runs as the command it is. -/
def accept (c : Command) (s : State) : Host.Outcome State Fault Refusal :=
  match decode c with
  | .ok i => exec i s
  | .error _ => .next (raise .illegalCmd s)

/-- A beat of the byte channel. -/
def OutEvent.isByte : OutEvent → Bool
  | .byte _ => true
  | .response _ => false

/-- The beats of the byte channel among what left between two points. -/
def beatsBetween (before after : List OutEvent) : List OutEvent :=
  (after.drop before.length).filter OutEvent.isByte

/-- A command abandoned by a reset: it delivers no response; what it had delivered is a prefix of its bytes,
of a length the host cannot know (70_reset_and_hazards.md rule R181). Assumption 6. -/
def abandon (c : Command) (s : State) : State :=
  match accept c s with
  | .next t =>
    { s with
      sent := s.sent ++ (beatsBetween s.sent t.sent).take
        (Config.bytesBeforeReset s.resets s.width s.n s.x c.word.toNat) }
  | .fault _ => s
  | .refused _ => s

/-- The host's move at the head of the queue is taken, the engine being idle (20_memory.md rule R41). -/
def takeMove (m : HostMove) (s : State) : Host.Outcome State Fault Refusal :=
  match m with
  | .command c => accept c s
  | .reset => .next (resetBlock s)
  | .resetDuring c => .next (resetBlock (abandon c s))

end Sys2Proof.Machine
end

