-- ==== Sys2Proof/Machine/Step.lean ====
section
/-! DEFINITION. The one step of the machine. -/

namespace Sys2Proof.Machine

/-- The engine moves only when the host presents a command or asserts reset (00_scope.md rule R9); with nothing
pending it is idle and holds its state (60_exceptions.md rule R166). Each command is one step (rule R9). Assumptions 4, 7 and 10. -/
def step (s : State) : Host.Outcome State Fault Refusal :=
  match s.pending with
  | [] => .next s
  | m :: rest => takeMove m (s.setPending rest)

/-- `s` with the command of the low `nbits` bits of `w`, zeros on both ports, presented ahead of all else. Assumption 4. -/
def State.withFetchWord (s : State) (nbits w : Nat) : State :=
  s.setPending (.command (tableCommand nbits w) :: s.pending)

end Sys2Proof.Machine
end

