-- ==== Sys2Proof/WellFormed.lean ====
section
/-! DEFINITION. What can be presented on the ports of a block of width `W`. -/

namespace Sys2Proof

/-- `W` is a positive multiple of 32 (00_scope.md rule R6). -/
abbrev ValidWidth (w : Nat) : Prop := 0 < w ∧ w % 32 = 0

/-- Both ports carry natural numbers below `2 ^ W` (30_encoding.md rule R64). -/
abbrev Command.fits (w : Nat) (c : Command) : Prop := c.opn < 2 ^ w ∧ c.opx < 2 ^ w

/-- An instruction that a block of width `w` can be given: the operands of LOAD are W-bit integers
(30_encoding.md rules R63 and R64); `LEN` is a 24-bit field by its type. -/
def Instr.wellFormed (w : Nat) : Instr → Bool
  | .load n x0 => decide (n < 2 ^ w) && decide (x0 < 2 ^ w)
  | .stat => true
  | .bit => true
  | .fill _ => true
  | .u32 => true
  | .u64 => true
  | .byte => true
  | .tryfill _ => true
  | .nopfill => true

end Sys2Proof
end

