-- ==== Sys2Proof/Safety.lean ====
section
/-! DEFINITION. The terms claims are made in: the invariant of a run, the stream of residues, bits and bytes
that starts at a state (00_scope.md section 5, 41_bitgenerator.md rule R102, 20_memory.md rules R42 to R44),
and what a host can read off the channels. -/

namespace Sys2Proof.Machine

/-- 10_state.md rule R24: while SEEDED = 1, N is odd and above 1 and X is below N. -/
abbrev State.InstanceOk (s : State) : Prop := s.seeded = true → s.n % 2 = 1 ∧ 1 < s.n ∧ s.x < s.n

/-- The invariant of every run: the width is one a build may have (00_scope.md rule R6), N and X are W-bit
registers (10_state.md rules R20 and R21), and rule R24 holds. -/
abbrev State.Sound (s : State) : Prop :=
  ValidWidth s.width ∧ s.n < 2 ^ s.width ∧ s.x < 2 ^ s.width ∧ s.InstanceOk

/-! ### The stream -/

/-- `x_k`: the residue after `k` advances from X (41_bitgenerator.md rule R102). -/
def State.residueAt (s : State) : Nat → Nat
  | 0 => s.x
  | k + 1 => modExp (s.residueAt k) Config.E s.n

/-- The `k`-th output bit, `x_k mod 2` (41_bitgenerator.md rule R102). -/
def State.streamBit (s : State) (k : Nat) : Bool := s.residueAt k % 2 == 1

/-- A bit as a number. -/
def bitNat (b : Bool) : Nat := if b then 1 else 0

/-- The byte packed from bits `8 i` to `8 i + 7` of the stream, the first in bit 7 (20_memory.md rule R43). -/
def State.streamByte (s : State) (i : Nat) : Byte :=
  BitVec.ofNat 8
    (bitNat (s.streamBit (8 * i)) * 128 + bitNat (s.streamBit (8 * i + 1)) * 64 +
      bitNat (s.streamBit (8 * i + 2)) * 32 + bitNat (s.streamBit (8 * i + 3)) * 16 +
      bitNat (s.streamBit (8 * i + 4)) * 8 + bitNat (s.streamBit (8 * i + 5)) * 4 +
      bitNat (s.streamBit (8 * i + 6)) * 2 + bitNat (s.streamBit (8 * i + 7)))

/-- The first `k` bytes of the stream, in order: `out[0]` to `out[k-1]` (20_memory.md rule R42). -/
def State.streamBytes (s : State) (k : Nat) : List Byte := (List.range k).map s.streamByte

/-- How many advances each command makes when it succeeds on a seeded block (42_facade.md rule R132). -/
def advances : Instr → Nat
  | .load _ _ => 0
  | .stat => 0
  | .bit => 1
  | .fill len => 8 * len.toNat
  | .u32 => 32
  | .u64 => 64
  | .byte => 8
  | .tryfill len => 8 * len.toNat
  | .nopfill => 0

/-! ### What the host reads -/

/-- The beats of the byte channel, in order. -/
def bytesOf : List OutEvent → List Byte
  | [] => []
  | .byte b :: l => b :: bytesOf l
  | .response _ :: l => bytesOf l

/-- The responses, in order. -/
def responsesOf : List OutEvent → List Response
  | [] => []
  | .byte _ :: l => responsesOf l
  | .response r :: l => r :: responsesOf l

/-- How many advances a sequence of command words makes on a seeded block (42_facade.md rule R132): none for an
illegal word. -/
def advancesOf (cs : List Command) : Nat :=
  (cs.map fun c => match decode c with
    | .ok i => advances i
    | .error _ => 0).sum

/-- The bits of a byte in the order drawn, bit 7 first (20_memory.md rule R43). -/
def byteBits (b : Byte) : List Bool := (List.range 8).map fun j => b.getLsbD (7 - j)

/-- The bits of a word of `k` bytes in the order drawn: the lowest byte first, its bit 7 first (42_facade.md
rule R125). -/
def wordBits (k : Nat) (v : RespVal) : List Bool :=
  (List.range k).flatMap fun i => (List.range 8).map fun j => v.getLsbD (8 * i + 7 - j)

/-- The value of the first response among what left, zero if there is none. -/
def valueOf (o : List OutEvent) : RespVal :=
  match responsesOf o with
  | r :: _ => r.val
  | [] => 0

/-- The bits of the stream that the outputs `o` of a command carry, in the order drawn. -/
def drawnBits (i : Instr) (o : List OutEvent) : List Bool :=
  match i with
  | .load _ _ => []
  | .stat => []
  | .bit => [(valueOf o).getLsbD 0]
  | .fill _ => (bytesOf o).flatMap byteBits
  | .u32 => wordBits 4 (valueOf o)
  | .u64 => wordBits 8 (valueOf o)
  | .byte => (bytesOf o).flatMap byteBits
  | .tryfill _ => (bytesOf o).flatMap byteBits
  | .nopfill => (bytesOf o).flatMap byteBits

/-- A run of `k` steps. -/
abbrev runSteps (k : Nat) (s : State) : Host.Outcome State Fault Refusal := Host.Core.run Sys2Proof.core k s

end Sys2Proof.Machine
end

