-- ==== Sys2Proof/Certificates/Slice0/Obligations.lean ====
section
/-! DEFINITION. The statements for the provers. A next state is written out in full, so that each statement of a
result is also a frame: what the record does not change, the command does not change. -/

open Sys2Proof Sys2Proof.Machine

/-! ### Encoding -/

/-- 30_encoding.md section 1 and rule R72: encoding an instruction and decoding it gives the core command it
stands for, itself unless it is a pseudo-command; and the decoder reads an instruction from no other word: it
gives `i` exactly when `i` is a core command, the word is the word of `i`, and the ports hold the operands of `i`
if it is a LOAD. -/
def Obligations.DecodeEncodeAgree : Prop :=
  (∀ i : Instr, decode (encode i) = .ok i.expand) ∧
  (∀ i : Instr, i.isCore = true → i.expand = i) ∧
  (∀ (c : Command) (i : Instr), decode c = .ok i ↔
    i.isCore = true ∧ c.word = encodeWord i ∧ ∀ n x0, i = .load n x0 → c.opn = n ∧ c.opx = x0)

/-- 30_encoding.md rule R61, "As 32-bit words": the words of the table, written out, decode to their commands. -/
def Obligations.TableWordsDecode : Prop :=
  decode ⟨0x01000000#32, 143, 2⟩ = .ok (.load 143 2) ∧
  decode ⟨0x02000000#32, 0, 0⟩ = .ok .stat ∧
  decode ⟨0x03000000#32, 0, 0⟩ = .ok .bit ∧
  decode ⟨0x04FFFFFF#32, 0, 0⟩ = .ok (.fill 0xFFFFFF#24) ∧
  decode ⟨0x05000000#32, 0, 0⟩ = .ok .u32 ∧
  decode ⟨0x06000000#32, 0, 0⟩ = .ok .u64

/-- 30_encoding.md rule R68: which words are illegal, decided from the word alone, and what an illegal command
does in any state: code 4, value 0, no byte, no change of state. The all-zero word is illegal. -/
def Obligations.IllegalWordsRaise : Prop :=
  (∀ c : Command, (∃ e, decode c = .error e) ↔
    ((opField c.word).toNat = 0x00 ∨ 0x07 ≤ (opField c.word).toNat) ∨
      ((opField c.word).toNat ∈ [0x01, 0x02, 0x03, 0x05, 0x06] ∧ lenField c.word ≠ 0)) ∧
  (∀ (c : Command) (s : State), (∃ e, decode c = .error e) →
    accept c s = .next { s with sent := s.sent ++ [.response ⟨.error .illegalCmd, 0⟩] }) ∧
  (Status.error .illegalCmd).code = 4 ∧
  (∀ opn opx, ∃ e, decode ⟨0x00000000#32, opn, opx⟩ = .error e)

/-- 30_encoding.md rule R63: LOAD takes its operands, plain W-bit integers, from the ports OPN and OPX; for every
other command word, illegal or not, the ports have no effect. -/
def Obligations.PortsReadByLoadOnly : Prop :=
  (∀ (s : State) (n x0 : Nat), n < 2 ^ s.width → x0 < n → n % 2 = 1 → 1 < n →
    accept ⟨0x01000000#32, n, x0⟩ s = .next { s with
      n := n, x := x0, seeded := true, sent := s.sent ++ [.response ⟨.ok, 0⟩] }) ∧
  (∀ (s : State) (w : CmdWord) (a b a' b' : Nat), (∀ n x0, decode ⟨w, a, b⟩ ≠ .ok (.load n x0)) →
    accept ⟨w, a, b⟩ s = accept ⟨w, a', b'⟩ s)

/-- 30_encoding.md rule R72 and 42_facade.md rule R126: each pseudo-command is another spelling of a FILL word, the
engine cannot tell it from FILL, and TRYFILL answers OK on a seeded block and ERR_NOT_SEEDED on an unseeded one. -/
def Obligations.PseudoCommandsAreFills : Prop :=
  (encodeWord .byte = 0x04000001#32 ∧ encode .byte = encode (.fill 1) ∧ ∀ s, exec .byte s = exec (.fill 1) s) ∧
  (∀ len, encode (.tryfill len) = encode (.fill len) ∧ ∀ s, exec (.tryfill len) s = exec (.fill len) s) ∧
  (encodeWord .nopfill = 0x04000000#32 ∧ encode .nopfill = encode (.fill 0) ∧
    ∀ s, exec .nopfill s = exec (.fill 0) s) ∧
  (∀ len (s : State), s.seeded = true →
    ∃ t, exec (.tryfill len) s = .next t ∧ t.sent.getLast? = some (.response ⟨.ok, 0⟩)) ∧
  (∀ len (s : State), s.seeded = false →
    exec (.tryfill len) s = .next { s with sent := s.sent ++ [.response ⟨.error .notSeeded, 0⟩] })

/-! ### The step -/

/-- A step runs the decoded command (20_memory.md section 1, 60_exceptions.md section 2): the command at the head of
the queue is taken off it and then runs; an illegal one raises ERR_ILLEGAL_CMD. The queue is the model's form of the
command channel (assumption 4). -/
def Obligations.StepRunsDecodedCommand : Prop :=
  (∀ (s : State) (c : Command) (rest : List HostMove) (i : Instr),
    s.pending = .command c :: rest → decode c = .ok i → step s = exec i { s with pending := rest }) ∧
  (∀ (s : State) (c : Command) (rest : List HostMove) (e : IllegalCause),
    s.pending = .command c :: rest → decode c = .error e →
    step s = .next { s with pending := rest, sent := s.sent ++ [.response ⟨.error .illegalCmd, 0⟩] })

/-- 60_exceptions.md section 6: with nothing presented the block is idle and holds its state for any length of time
(assumption 7: an idle step answers the same state). -/
def Obligations.IdleBlockHoldsState : Prop :=
  ∀ (s : State) (k : Nat), s.pending = [] → runSteps k s = .next s

/-- 70_reset_and_hazards.md section 4, 60_exceptions.md section 4: no command hangs and nothing stops the block. From
every state the queue of the host's moves is worked off, one move a step, and every command of it is answered. -/
def Obligations.EveryCommandIsAnswered : Prop :=
  ∀ s : State, ∃ t, runSteps s.pending.length s = .next t ∧ t.pending = [] ∧
    (responsesOf t.sent).length = (responsesOf s.sent).length +
      (s.pending.filter fun m => match m with
        | .command _ => true
        | .reset => false
        | .resetDuring _ => false).length

/-- 00_scope.md rule R11: every command ends in exactly one response, code 0 unless it ends in an error; bytes are
emitted by FILL alone, exactly LEN of them when it succeeds, all before the response. -/
def Obligations.OneResponseAfterAllBytes : Prop :=
  ∀ (c : Command) (s : State), ∃ t bs r, accept c s = .next t ∧
    t.sent = s.sent ++ bs.map OutEvent.byte ++ [.response r] ∧
    (r.status.code = 0 ↔ r.status = .ok) ∧
    (∀ e, r.status = .error e → bs = [] ∧ t = { s with sent := s.sent ++ [.response ⟨.error e, 0⟩] }) ∧
    (r.status = .ok → ∀ len, decode c = .ok (.fill len) → bs.length = len.toNat) ∧
    (bs ≠ [] → ∃ len, decode c = .ok (.fill len))

/-- The model's form of 20_memory.md section 6, by its choice of assumption 5: what has left the block is one record
in the order produced, and no move of the host, a reset included, takes anything from that record. -/
def Obligations.OutputsOnlyAppend : Prop :=
  ∀ s t : State, step s = .next t → s.sent <+: t.sent

/-! ### LOAD and STAT -/

/-- 40_construction.md rule R83 (with R80 and R82): a LOAD of any odd modulus above 1 and any seed below it, on a seeded
or an unseeded block, starts a generator instance; nothing else is checked. -/
def Obligations.LoadStartsInstance : Prop :=
  ∀ (s : State) (n x0 : Nat), n < 2 ^ s.width → n % 2 = 1 → 1 < n → x0 < n →
    exec (.load n x0) s = .next { s with
      n := n, x := x0, seeded := true, sent := s.sent ++ [.response ⟨.ok, 0⟩] }

/-- 40_construction.md rule R81: the checks of LOAD, the modulus first; a failed LOAD changes nothing but the response,
and reads neither N nor X. -/
def Obligations.LoadChecksInOrder : Prop :=
  ∀ (s : State) (n x0 : Nat), n < 2 ^ s.width → x0 < 2 ^ s.width →
    ((n % 2 = 0 ∨ n = 1) →
      exec (.load n x0) s = .next { s with sent := s.sent ++ [.response ⟨.error .modulusInvariant, 0⟩] }) ∧
    (n % 2 = 1 → n ≠ 1 → n ≤ x0 →
      exec (.load n x0) s = .next { s with sent := s.sent ++ [.response ⟨.error .seedRange, 0⟩] }) ∧
    (n % 2 = 1 → n ≠ 1 → x0 < n →
      exec (.load n x0) s = .next { s with
        n := n, x := x0, seeded := true, sent := s.sent ++ [.response ⟨.ok, 0⟩] })

/-- The model's choice, assumption 3: a W-bit port carries the low W bits of what is put on it, so LOAD with wider
operands is LOAD with those low bits. -/
def Obligations.PortsCarryWBits : Prop :=
  ∀ (s : State) (n x0 : Nat), exec (.load n x0) s = exec (.load (n % 2 ^ s.width) (x0 % 2 ^ s.width)) s

/-- 40_construction.md rule R84 (with 10_state.md section 7): STAT returns SEEDED in bit 0 and zeros above, in any state,
never fails but with a nonzero LEN, and changes nothing. -/
def Obligations.StatReturnsSeeded : Prop :=
  (∀ opn opx, decode ⟨0x02000000#32, opn, opx⟩ = .ok .stat) ∧
  (∀ (len : LenField) (opn opx : Nat) (s : State), len ≠ 0 →
    accept ⟨commandWord 0x02 len, opn, opx⟩ s =
      .next { s with sent := s.sent ++ [.response ⟨.error .illegalCmd, 0⟩] }) ∧
  (∀ s : State, ∃ v : RespVal,
    exec .stat s = .next { s with sent := s.sent ++ [.response ⟨.ok, v⟩] } ∧
    v.getLsbD 0 = s.seeded ∧ ∀ k, 1 ≤ k → v.getLsbD k = false)

/-! ### The recurrence and BIT -/

/-- 00_scope.md rule R10: ModExp is the power over the unbounded integers reduced once, lies below the modulus, and has
the fixed points 0, 1 and n - 1 (for an odd exponent). -/
def Obligations.ModExpFacts : Prop :=
  (∀ x e n, modExp x e n = x ^ e % n) ∧
  (∀ x e n, 1 ≤ n → modExp x e n < n) ∧
  (∀ e n, 1 ≤ e → 1 ≤ n → modExp 0 e n = 0) ∧
  (∀ e n, 1 < n → modExp 1 e n = 1) ∧
  (∀ e n, 1 < n → e % 2 = 1 → modExp (n - 1) e n = n - 1)

/-- 41_bitgenerator.md rule R100: the one transition returns bit 0 of X, that is X mod 2, of the residue before the
advance, and replaces X by X to the power 65537 modulo N. -/
def Obligations.TransitionExtractsThenAdvances : Prop :=
  ∀ s : State, advanceAndExtract s = (s.x % 2 == 1, { s with x := s.x ^ 65537 % s.n })

/-- 41_bitgenerator.md rule R101: all that the BIT command does. -/
def Obligations.BitResult : Prop :=
  (∀ opn opx, decode ⟨0x03000000#32, opn, opx⟩ = .ok .bit) ∧
  (∀ (len : LenField) (opn opx : Nat) (s : State), len ≠ 0 →
    accept ⟨commandWord 0x03 len, opn, opx⟩ s =
      .next { s with sent := s.sent ++ [.response ⟨.error .illegalCmd, 0⟩] }) ∧
  (∀ s : State, s.seeded = false →
    exec .bit s = .next { s with sent := s.sent ++ [.response ⟨.error .notSeeded, 0⟩] }) ∧
  (∀ s : State, s.seeded = true →
    exec .bit s = .next { s with
      x := s.x ^ 65537 % s.n
      sent := s.sent ++ [.response ⟨.ok, BitVec.ofNat 64 (s.x % 2)⟩] })

/-- 41_bitgenerator.md rule R102: after LOAD n, x0 the k-th BIT returns x_k mod 2 for k from 0, where x_0 = x0, so the
first is a bit of the seed itself; after k bits X holds x_k. -/
def Obligations.BitsAfterLoad : Prop :=
  ∀ (s : State) (n x0 k : Nat), n < 2 ^ s.width → n % 2 = 1 → 1 < n → x0 < n →
    s.pending = .command (encode (.load n x0)) :: List.replicate k (.command (encode .bit)) →
    ∃ xs : Nat → Nat, xs 0 = x0 ∧ (∀ j, xs (j + 1) = xs j ^ 65537 % n) ∧
      runSteps (k + 1) s = .next { s with
        n := n, x := xs k, seeded := true, pending := []
        sent := s.sent ++ [.response ⟨.ok, 0⟩] ++
          (List.range k).map fun j => OutEvent.response ⟨.ok, BitVec.ofNat 64 (xs j % 2)⟩ }

/-- 41_bitgenerator.md rule R104: the stream has no end and is eventually periodic, with at most N residues before it
repeats; it is purely periodic when the state map is a permutation of the residues. -/
def Obligations.StreamEventuallyPeriodic : Prop :=
  ∀ s : State, s.seeded = true → s.InstanceOk →
    (∃ i j, i < j ∧ j ≤ s.n ∧ ∀ k, s.residueAt (i + k) = s.residueAt (j + k)) ∧
    ((∀ x y, x < s.n → y < s.n → modExp x 65537 s.n = modExp y 65537 s.n → x = y) →
      ∃ p, 0 < p ∧ p ≤ s.n ∧ ∀ k, s.residueAt (p + k) = s.residueAt k)

/-- 41_bitgenerator.md rule R105: the fixed points 0, 1 and n - 1 and the streams they give; a seed that shares a
factor with n keeps it; and where 65537 is 1 modulo lambda(n), n squarefree, every residue is a fixed point. None of
these is an error. -/
def Obligations.DegenerateResidues : Prop :=
  (∀ (s : State) (len : LenField), s.seeded = true → s.InstanceOk → (s.x = 0 ∨ s.x = s.n - 1) →
    exec (.fill len) s = .next { s with
      sent := s.sent ++ List.replicate len.toNat (.byte 0x00) ++ [.response ⟨.ok, 0⟩] }) ∧
  (∀ (s : State) (len : LenField), s.seeded = true → s.InstanceOk → s.x = 1 →
    exec (.fill len) s = .next { s with
      sent := s.sent ++ List.replicate len.toNat (.byte 0xFF) ++ [.response ⟨.ok, 0⟩] }) ∧
  (∀ (s : State) (p : Nat), p ∣ s.n → p ∣ s.x → ∀ k, p ∣ s.residueAt k) ∧
  (∀ s : State, s.InstanceOk → s.seeded = true → Squarefree s.n →
    (∀ p, p.Prime → p ∣ s.n → (p - 1) ∣ 65536) → ∀ k, s.residueAt k = s.x)

/-- 41_bitgenerator.md section 3, the two examples of rule R106, n = 2752557 where the exponent condition fails and n = 9
where p = q: the block goes on silently: two residues are sent to one image and BIT answers OK. (What BIT does for every
modulus is `Obligations.BitResult`.) -/
def Obligations.ExponentConditionIsSilent : Prop :=
  ∀ s : State, s.seeded = true →
    (s.n = 2752557 → (s.x = 3 ∨ s.x = 15) → exec .bit s = .next { s with
      x := 2475198, sent := s.sent ++ [.response ⟨.ok, 1⟩] }) ∧
    (s.n = 9 → s.x = 3 → exec .bit s = .next { s with x := 0, sent := s.sent ++ [.response ⟨.ok, 1⟩] }) ∧
    (s.n = 9 → s.x = 0 → exec .bit s = .next { s with x := 0, sent := s.sent ++ [.response ⟨.ok, 0⟩] })

/-- 41_bitgenerator.md section 3, 40_construction.md section 3: for a modulus of two distinct primes the state map is a
permutation of the residues exactly when the exponent condition gcd(65537, lambda(n)) = 1 holds, and then the stream of
every instance is purely periodic; for n = p p it is never one. -/
def Obligations.ExponentConditionDecidesPermutation : Prop :=
  (∀ p q : Nat, p.Prime → q.Prime → p ≠ q →
    (Set.BijOn (fun x => modExp x 65537 (p * q)) (Set.Iio (p * q)) (Set.Iio (p * q)) ↔
      Nat.gcd 65537 (Nat.lcm (p - 1) (q - 1)) = 1)) ∧
  (∀ (s : State) (p q : Nat), p.Prime → q.Prime → p ≠ q → s.n = p * q → s.seeded = true → s.InstanceOk →
    Nat.gcd 65537 (Nat.lcm (p - 1) (q - 1)) = 1 → ∃ d, 0 < d ∧ d ≤ s.n ∧ ∀ k, s.residueAt (d + k) = s.residueAt k) ∧
  (∀ p : Nat, p.Prime → ¬ Set.InjOn (fun x => modExp x 65537 (p * p)) (Set.Iio (p * p)))

/-! ### The facade -/

/-- 42_facade.md rule R120 (with 20_memory.md rule R43): the byte packer draws exactly 8 bits, the first into bit 7 and
the last into bit 0, and no bit is shifted out. -/
def Obligations.PackerPutsFirstBitHighest : Prop :=
  ∀ s : State, ∃ b : Byte, packByte s = (b, { s with x := s.residueAt 8 }) ∧
    (∀ j, j < 8 → b.getLsbD (7 - j) = s.streamBit j) ∧
    b.toNat = ((List.range 8).map fun j => bitNat (s.streamBit j) * 2 ^ (7 - j)).sum

/-- 42_facade.md rule R121: all that the FILL command and its spellings TRYFILL, BYTE and NOPFILL do. Every LEN is legal.
On a seeded block: exactly len bytes in index order, byte i made of bits 8i to 8i+7 of the stream, the first highest,
then the response; X is advanced 8 len times and nothing else changes. On an unseeded block: ERR_NOT_SEEDED. -/
def Obligations.FillResult : Prop :=
  (∀ (len : LenField) (opn opx : Nat),
    decode ⟨0x04000000#32 + len.setWidth 32, opn, opx⟩ = .ok (.fill len)) ∧
  ∀ (s : State) (i : Instr) (len : LenField),
    (i = .fill len ∨ i = .tryfill len ∨ (i = .byte ∧ len = 1) ∨ (i = .nopfill ∧ len = 0)) →
    (s.seeded = false → exec i s = .next { s with sent := s.sent ++ [.response ⟨.error .notSeeded, 0⟩] }) ∧
    (s.seeded = true → ∃ out : List Byte, out.length = len.toNat ∧
      (∀ k j, k < len.toNat → j < 8 → (out.getD k 0).getLsbD (7 - j) = s.streamBit (8 * k + j)) ∧
      exec i s = .next { s with
        x := s.residueAt (8 * len.toNat)
        sent := s.sent ++ out.map OutEvent.byte ++ [.response ⟨.ok, 0⟩] })

/-- 42_facade.md rule R122: FILL 0 on a seeded block emits nothing and makes no advance, so it may be repeated; on an
unseeded block it raises ERR_NOT_SEEDED like any FILL. -/
def Obligations.EmptyFill : Prop :=
  (∀ s : State, s.seeded = true →
    exec (.fill 0) s = .next { s with sent := s.sent ++ [.response ⟨.ok, 0⟩] }) ∧
  (∀ s : State, s.seeded = false →
    exec (.fill 0) s = .next { s with sent := s.sent ++ [.response ⟨.error .notSeeded, 0⟩] })

/-- 42_facade.md rules R123 and R125: all that the U32 command does: the next four bytes, the first lowest, in
bits 31:0. -/
def Obligations.U32Result : Prop :=
  (∀ opn opx, decode ⟨0x05000000#32, opn, opx⟩ = .ok .u32) ∧
  (∀ (len : LenField) (opn opx : Nat) (s : State), len ≠ 0 →
    accept ⟨commandWord 0x05 len, opn, opx⟩ s =
      .next { s with sent := s.sent ++ [.response ⟨.error .illegalCmd, 0⟩] }) ∧
  (∀ s : State, s.seeded = false →
    exec .u32 s = .next { s with sent := s.sent ++ [.response ⟨.error .notSeeded, 0⟩] }) ∧
  (∀ s : State, s.seeded = true → ∃ v : RespVal,
    exec .u32 s = .next { s with
      x := s.residueAt 32, sent := s.sent ++ [.response ⟨.ok, v⟩] } ∧
    (∀ i j, i < 4 → j < 8 → v.getLsbD (8 * i + 7 - j) = s.streamBit (8 * i + j)) ∧
    (∀ k, 32 ≤ k → v.getLsbD k = false))

/-- 42_facade.md rules R124 and R125: all that the U64 command does: the next eight bytes, the first lowest. -/
def Obligations.U64Result : Prop :=
  (∀ opn opx, decode ⟨0x06000000#32, opn, opx⟩ = .ok .u64) ∧
  (∀ (len : LenField) (opn opx : Nat) (s : State), len ≠ 0 →
    accept ⟨commandWord 0x06 len, opn, opx⟩ s =
      .next { s with sent := s.sent ++ [.response ⟨.error .illegalCmd, 0⟩] }) ∧
  (∀ s : State, s.seeded = false →
    exec .u64 s = .next { s with sent := s.sent ++ [.response ⟨.error .notSeeded, 0⟩] }) ∧
  (∀ s : State, s.seeded = true → ∃ v : RespVal,
    exec .u64 s = .next { s with
      x := s.residueAt 64, sent := s.sent ++ [.response ⟨.ok, v⟩] } ∧
    (∀ i j, i < 8 → j < 8 → v.getLsbD (8 * i + 7 - j) = s.streamBit (8 * i + j)))

/-- 42_facade.md rule R128: composability. FILL a+b is FILL a then FILL b; eight BITs give the eight bits of one BYTE,
the first in bit 7; FILL 4 gives the bytes of U32, the first lowest; after a BIT the next FILL starts a fresh byte at
the bit after it. (Any mix of commands is `Obligations.AnyMixDrawsOneStream`.) -/
def Obligations.StreamIsComposable : Prop :=
  (∀ (s : State) (a b c : LenField), s.seeded = true → c.toNat = a.toNat + b.toNat →
    ∃ s1 s2 t, exec (.fill a) s = .next s1 ∧ exec (.fill b) s1 = .next s2 ∧ exec (.fill c) s = .next t ∧
      t.x = s2.x ∧ bytesOf t.sent = bytesOf s2.sent) ∧
  (∀ (s : State) (rest : List HostMove), s.seeded = true →
    s.pending = List.replicate 8 (.command (encode .bit)) ++ rest →
    ∃ (t u : State) (b : Byte), runSteps 8 s = .next t ∧ exec .byte s = .next u ∧ t.x = u.x ∧
      u.sent = s.sent ++ [.byte b, .response ⟨.ok, 0⟩] ∧
      t.sent = s.sent ++ (List.range 8).map fun j =>
        OutEvent.response ⟨.ok, BitVec.ofNat 64 (bitNat (b.getLsbD (7 - j)))⟩) ∧
  (∀ s : State, s.seeded = true → ∃ (t u : State) (b0 b1 b2 b3 : Byte),
    exec (.fill 4) s = .next t ∧ exec .u32 s = .next u ∧ t.x = u.x ∧
    t.sent = s.sent ++ [.byte b0, .byte b1, .byte b2, .byte b3, .response ⟨.ok, 0⟩] ∧
    u.sent = s.sent ++ [.response ⟨.ok, BitVec.ofNat 64
      (b0.toNat + b1.toNat * 2 ^ 8 + b2.toNat * 2 ^ 16 + b3.toNat * 2 ^ 24)⟩]) ∧
  (∀ (s : State) (len : LenField), s.seeded = true →
    ∃ (s1 t : State) (out : List Byte), exec .bit s = .next s1 ∧ exec (.fill len) s1 = .next t ∧
      t.sent = s1.sent ++ out.map OutEvent.byte ++ [.response ⟨.ok, 0⟩] ∧ out.length = len.toNat ∧
      ∀ i j, i < len.toNat → j < 8 → (out.getD i 0).getLsbD (7 - j) = s.streamBit (1 + 8 * i + j))

/-- 42_facade.md rule R129: word consistency. U32 and U64 return the little-endian word of the bytes that FILL 4 and
FILL 8 give from the same state and leave the same X; the low half of U64 is U32. -/
def Obligations.WordsAreFillsLittleEndian : Prop :=
  ∀ s : State, s.seeded = true → ∃ (t4 t8 u32 u64 : State) (bs4 bs8 : List Byte) (v32 v64 : RespVal),
    exec (.fill 4) s = .next t4 ∧ exec .u32 s = .next u32 ∧ exec (.fill 8) s = .next t8 ∧ exec .u64 s = .next u64 ∧
    u32.x = t4.x ∧ u64.x = t8.x ∧
    t4.sent = s.sent ++ bs4.map OutEvent.byte ++ [.response ⟨.ok, 0⟩] ∧ bs4.length = 4 ∧
    t8.sent = s.sent ++ bs8.map OutEvent.byte ++ [.response ⟨.ok, 0⟩] ∧ bs8.length = 8 ∧
    u32.sent = s.sent ++ [.response ⟨.ok, v32⟩] ∧ u64.sent = s.sent ++ [.response ⟨.ok, v64⟩] ∧
    v32.toNat = ((List.range 4).map fun i => (bs4.getD i 0).toNat * 2 ^ (8 * i)).sum ∧
    v64.toNat = ((List.range 8).map fun i => (bs8.getD i 0).toNat * 2 ^ (8 * i)).sum ∧
    v64.toNat % 2 ^ 32 = v32.toNat

/-- 42_facade.md rule R132: the advances each command makes; LOAD makes none (X is the operand itself), STAT none,
and a command that ends in an error none. -/
def Obligations.AdvancesPerCommand : Prop :=
  (∀ (s t : State) (n x0 : Nat), n < 2 ^ s.width → x0 < 2 ^ s.width → exec (.load n x0) s = .next t →
    t.x = s.x ∨ (t.x = x0 ∧ t.n = n)) ∧
  (∀ s t : State, exec .stat s = .next t → t.x = s.x) ∧
  (∀ s t : State, s.seeded = true → exec .bit s = .next t → t.x = s.residueAt 1) ∧
  (∀ (s t : State) (len : LenField), s.seeded = true → exec (.fill len) s = .next t →
    t.x = s.residueAt (8 * len.toNat)) ∧
  (∀ s t : State, s.seeded = true → exec .u32 s = .next t → t.x = s.residueAt 32) ∧
  (∀ s t : State, s.seeded = true → exec .u64 s = .next t → t.x = s.residueAt 64) ∧
  (∀ (c : Command) (s t : State) (e : CmdError) (v : RespVal), accept c s = .next t →
    t.sent.getLast? = some (.response ⟨.error e, v⟩) → t.x = s.x)

/-! ### Errors -/

/-- 60_exceptions.md rules R150, R151, R152 and R154: the status of every command, as an equivalence for each code, the
numbers of the codes, and value 0 with every error. No other code is produced. -/
def Obligations.StatusOfEveryCommand : Prop :=
  (Status.ok.code = 0 ∧ (Status.error .modulusInvariant).code = 1 ∧ (Status.error .seedRange).code = 2 ∧
    (Status.error .notSeeded).code = 3 ∧ (Status.error .illegalCmd).code = 4) ∧
  ∀ (c : Command) (s : State), c.fits s.width → ∃ t st v, accept c s = .next t ∧
    t.sent.getLast? = some (.response ⟨st, v⟩) ∧
    (st = .error .illegalCmd ↔ ∃ e, decode c = .error e) ∧
    (st = .error .notSeeded ↔ s.seeded = false ∧
      (decode c = .ok .bit ∨ (∃ len, decode c = .ok (.fill len)) ∨ decode c = .ok .u32 ∨ decode c = .ok .u64)) ∧
    (st = .error .modulusInvariant ↔ decode c = .ok (.load c.opn c.opx) ∧ (c.opn % 2 = 0 ∨ c.opn ≤ 1)) ∧
    (st = .error .seedRange ↔
      decode c = .ok (.load c.opn c.opx) ∧ ¬(c.opn % 2 = 0 ∨ c.opn ≤ 1) ∧ c.opn ≤ c.opx) ∧
    (st ≠ .ok → v = 0)

/-- 60_exceptions.md rule R157: the order of priority. An illegal word is reported whatever else is wrong; a LOAD
whose modulus and seed are both bad reports the modulus. -/
def Obligations.ErrorPriority : Prop :=
  (∀ (c : Command) (s : State) (e : IllegalCause), decode c = .error e →
    accept c s = .next { s with sent := s.sent ++ [.response ⟨.error .illegalCmd, 0⟩] }) ∧
  (∀ (c : Command) (s : State), s.seeded = false →
    (decode c = .ok .bit ∨ (∃ len, decode c = .ok (.fill len)) ∨ decode c = .ok .u32 ∨ decode c = .ok .u64) →
    accept c s = .next { s with sent := s.sent ++ [.response ⟨.error .notSeeded, 0⟩] }) ∧
  (∀ (c : Command) (s : State), c.fits s.width → decode c = .ok (.load c.opn c.opx) →
    (c.opn % 2 = 0 ∨ c.opn ≤ 1) →
    accept c s = .next { s with sent := s.sent ++ [.response ⟨.error .modulusInvariant, 0⟩] }) ∧
  (∀ (c : Command) (s : State), c.fits s.width → decode c = .ok (.load c.opn c.opx) →
    ¬(c.opn % 2 = 0 ∨ c.opn ≤ 1) → c.opn ≤ c.opx →
    accept c s = .next { s with sent := s.sent ++ [.response ⟨.error .seedRange, 0⟩] })

/-- 60_exceptions.md rule R155: a command that ends in an error has no effect but its response: no register is written,
no byte emitted, and the value is 0. -/
def Obligations.ErrorsArePrecise : Prop :=
  ∀ (c : Command) (s t : State) (e : CmdError) (v : RespVal), accept c s = .next t →
    t.sent.getLast? = some (.response ⟨.error e, v⟩) →
    t = { s with sent := s.sent ++ [.response ⟨.error e, 0⟩] }

/-- 60_exceptions.md rule R160: on a seeded block a legal BIT, FILL, U32, U64 or STAT always answers OK; only a LOAD
with bad operands and an illegal word can fail. -/
def Obligations.SeededBlockFailsOnlyOnLoadOrIllegal : Prop :=
  ∀ (c : Command) (s : State), s.seeded = true →
    ((decode c = .ok .bit ∨ (∃ len, decode c = .ok (.fill len)) ∨ decode c = .ok .u32 ∨ decode c = .ok .u64 ∨
        decode c = .ok .stat) →
      ∃ t v, accept c s = .next t ∧ t.sent.getLast? = some (.response ⟨.ok, v⟩)) ∧
    (∀ t e v, c.fits s.width → accept c s = .next t → t.sent.getLast? = some (.response ⟨.error e, v⟩) →
      (∃ ill, decode c = .error ill) ∨
        (decode c = .ok (.load c.opn c.opx) ∧ (c.opn % 2 = 0 ∨ c.opn ≤ 1 ∨ c.opn ≤ c.opx)))

/-- 70_reset_and_hazards.md rule R183: on an unseeded block BIT, FILL of any length, U32 and U64 answer ERR_NOT_SEEDED and
change nothing, as often as they are tried; STAT answers OK, and LOAD of valid operands seeds it. -/
def Obligations.UnseededBlockOnlyLoadsAndReports : Prop :=
  (∀ (s : State) (is : List Instr), s.seeded = false →
    (∀ i ∈ is, i = .bit ∨ (∃ len, i = .fill len) ∨ i = .u32 ∨ i = .u64) →
    s.pending = is.map (fun i => HostMove.command (encode i)) →
    runSteps is.length s = .next { s with
      pending := [], sent := s.sent ++ List.replicate is.length (.response ⟨.error .notSeeded, 0⟩) }) ∧
  (∀ s : State, s.seeded = false → exec .stat s = .next { s with sent := s.sent ++ [.response ⟨.ok, 0⟩] }) ∧
  (∀ (s : State) (n x0 : Nat), s.seeded = false → n < 2 ^ s.width → n % 2 = 1 → 1 < n → x0 < n →
    ∃ t, exec (.load n x0) s = .next t ∧ t.seeded = true ∧ t.sent = s.sent ++ [.response ⟨.ok, 0⟩])

/-! ### Registers, invariant, reset -/

/-- 10_state.md rules R20, R21 and R22, and section 9: among commands only a successful LOAD writes N, with OPN; X is
written by a successful LOAD, with OPX, and by advances; no command clears SEEDED and only LOAD sets it; no command
changes the width of the block or takes a move of the host. -/
def Obligations.CommandFrame : Prop :=
  ∀ (c : Command) (s t : State), accept c s = .next t →
    t.width = s.width ∧ t.pending = s.pending ∧ t.resets = s.resets ∧
    (s.seeded = true → t.seeded = true) ∧
    ((∀ n x0, decode c ≠ .ok (.load n x0)) →
      t.n = s.n ∧ t.seeded = s.seeded ∧ ∃ k, t.x = s.residueAt k) ∧
    (∀ n x0, n < 2 ^ s.width → x0 < 2 ^ s.width → decode c = .ok (.load n x0) →
      (t.n = s.n ∧ t.x = s.x ∧ t.seeded = s.seeded) ∨ (t.n = n ∧ t.x = x0 ∧ t.seeded = true))

/-- 10_state.md rule R24 is kept by every step: while SEEDED = 1, N is odd and above 1 and X is below N; and N and X stay
W-bit values, W a positive multiple of 32. -/
def Obligations.StepKeepsSound : Prop :=
  ∀ s t : State, s.Sound → step s = .next t → t.Sound

/-- The invariant holds after reset, whatever the width of the build and whatever values the opaque constants of the
configuration have (assumptions 1 and 2). -/
def Obligations.ResetIsSound : Prop :=
  (∀ w, ValidWidth w → (State.resetAt w).Sound) ∧ State.reset.Sound

/-- 70_reset_and_hazards.md section 1, 10_state.md section 8: reset between commands clears SEEDED and leaves nothing else
changed but N and X, which stay W-bit values (assumption 2), and the model's count of resets (assumption 12). -/
def Obligations.ResetClearsSeeded : Prop :=
  (∀ (s : State) (rest : List HostMove), s.pending = .reset :: rest → ∃ n x, n < 2 ^ s.width ∧ x < 2 ^ s.width ∧
    step s = .next { s with n := n, x := x, seeded := false, pending := rest, resets := s.resets + 1 }) ∧
  State.reset.seeded = false ∧ State.reset.pending = [] ∧ State.reset.sent = []

/-- 70_reset_and_hazards.md section 1: reset is the only way to clear SEEDED. -/
def Obligations.OnlyResetClearsSeeded : Prop :=
  ∀ s t : State, step s = .next t → s.seeded = true → t.seeded = false →
    ∃ rest, s.pending = .reset :: rest ∨ ∃ c, s.pending = .resetDuring c :: rest

/-- 70_reset_and_hazards.md section 1: a reset while a command is in flight abandons it: no response; what it had put on
the byte channel is a prefix of the bytes it would have delivered; the state is then that of any reset, N and X
unspecified W-bit values. How long the prefix is, is a free value (assumption 6). -/
def Obligations.AbandonedCommandDeliversPrefix : Prop :=
  ∀ (s : State) (c : Command) (rest : List HostMove), s.pending = .resetDuring c :: rest →
    ∃ (u : State) (bs : List Byte) (n x : Nat), n < 2 ^ s.width ∧ x < 2 ^ s.width ∧
      accept c { s with pending := rest } = .next u ∧
      bs <+: bytesOf (u.sent.drop s.sent.length) ∧
      step s = .next { s with
        n := n, x := x, seeded := false, pending := rest, resets := s.resets + 1
        sent := s.sent ++ bs.map OutEvent.byte }

/-! ### What the host can learn -/

/-- 10_state.md section 8, 60_exceptions.md section 1: what N and X hold while SEEDED = 0 is never observable. Two blocks
that differ in nothing else give the same responses for ever, through every command and reset, and agree on SEEDED, and
on N and X once seeded; and they send the same bytes too, unless a reset cuts a command: how many bytes that one had
delivered is a free value (assumption 6), and nothing is said of it here. -/
def Obligations.UnseededRegistersUnobservable : Prop :=
  ∀ (s : State) (a b k : Nat), s.seeded = false →
    ∃ t t', runSteps k s = .next t ∧ runSteps k { s with n := a, x := b } = .next t' ∧
      responsesOf t.sent = responsesOf t'.sent ∧ t.seeded = t'.seeded ∧
      (t.seeded = true → t.n = t'.n ∧ t.x = t'.x) ∧
      ((∀ m ∈ s.pending, ∀ c, m ≠ .resetDuring c) → t.sent = t'.sent)

/-- 00_scope.md rule R12: given the commands and operands since the last reset, every response and every output byte is
a function of that sequence alone: it does not depend on the state the reset found, nor on whether the reset came between
commands or cut one, nor on the widths of the blocks, if both hold the operands. -/
def Obligations.OutputIsFunctionOfCommandsSinceReset : Prop :=
  ∀ (s t : State) (m m' : HostMove) (cs : List Command), (∀ c ∈ cs, c.fits s.width ∧ c.fits t.width) →
    (m = .reset ∨ ∃ c, m = .resetDuring c) → (m' = .reset ∨ ∃ c, m' = .resetDuring c) →
    s.pending = m :: cs.map HostMove.command → t.pending = m' :: cs.map HostMove.command →
    ∃ s1 t1 s' t' out, step s = .next s1 ∧ step t = .next t1 ∧
      runSteps cs.length s1 = .next s' ∧ runSteps cs.length t1 = .next t' ∧
      s'.sent = s1.sent ++ out ∧ t'.sent = t1.sent ++ out ∧
      (m = .reset → s1.sent = s.sent) ∧ (m' = .reset → t1.sent = t.sent)

/-- 42_facade.md rule R130: two blocks, of any widths that hold the operands and in any states, given the same valid LOAD
and then the same commands, give the same responses and bytes. -/
def Obligations.SameLoadSameStream : Prop :=
  ∀ (s t : State) (n x0 : Nat) (cs : List Command), n < 2 ^ s.width → n < 2 ^ t.width → n % 2 = 1 → 1 < n → x0 < n →
    (∀ c ∈ cs, c.fits s.width ∧ c.fits t.width) →
    s.pending = .command (encode (.load n x0)) :: cs.map HostMove.command →
    t.pending = .command (encode (.load n x0)) :: cs.map HostMove.command →
    ∃ s' t' out, runSteps (cs.length + 1) s = .next s' ∧ runSteps (cs.length + 1) t = .next t' ∧
      s'.sent = s.sent ++ out ∧ t'.sent = t.sent ++ out

/-- 00_scope.md section 2, the last sentence of its rule on W: no result depends on the width of the block, if both widths
hold the operands presented: the responses, SEEDED, and N and X while seeded, through every command and reset; and the
bytes, unless a reset cuts a command: how many bytes that one had delivered is a free value, which may depend on the
width (assumption 6), and nothing is said of it here. -/
def Obligations.OutputsIndependentOfWidth : Prop :=
  ∀ (s : State) (w k : Nat),
    (∀ m ∈ s.pending, ∀ c, m = .command c ∨ m = .resetDuring c → c.fits s.width ∧ c.fits w) →
    ∃ t t', runSteps k s = .next t ∧ runSteps k { s with width := w } = .next t' ∧
      responsesOf t.sent = responsesOf t'.sent ∧ t.seeded = t'.seeded ∧
      (t.seeded = true → t.n = t'.n ∧ t.x = t'.x) ∧
      ((∀ m ∈ s.pending, ∀ c, m ≠ .resetDuring c) → t.sent = t'.sent)

/-- 10_state.md rule R28: no command returns N, or X beyond bit 0 of X once an advance. Two seeded blocks of one width
whose streams agree in as many low bits as the commands make advances answer these commands alike, whatever their moduli
and residues, and whatever their streams are from there on. -/
def Obligations.HostLearnsOnlyLowBits : Prop :=
  ∀ (s t : State) (cs : List Command), s.width = t.width → s.seeded = true → t.seeded = true →
    (∀ k, k < advancesOf cs → s.streamBit k = t.streamBit k) →
    s.pending = cs.map HostMove.command → t.pending = cs.map HostMove.command →
    ∃ s' t' out, runSteps cs.length s = .next s' ∧ runSteps cs.length t = .next t' ∧
      s'.sent = s.sent ++ out ∧ t'.sent = t.sent ++ out

/-! ### Any mix of commands -/

/-- 70_reset_and_hazards.md section 3, 42_facade.md section 5: the stream seen through any mix of commands but LOAD on a
seeded block is one sequence of bits, each drawn once, in order. Every command answers OK, after its bytes; the bits its
output carries are as many as its advances; all of them together, in order, are the first bits of the stream; X is
moved on by the sum of the advances; and nothing else changes. The queue is assumption 4. -/
def Obligations.AnyMixDrawsOneStream : Prop :=
  ∀ (s : State) (is : List Instr) (rest : List HostMove), s.seeded = true →
    (∀ i ∈ is, ∀ n x0, i ≠ .load n x0) →
    s.pending = (is.map fun i => HostMove.command (encode i)) ++ rest →
    ∃ outs : List (List OutEvent),
      (∀ o ∈ outs, ∃ (bs : List Byte) (v : RespVal), o = bs.map OutEvent.byte ++ [.response ⟨.ok, v⟩]) ∧
      outs.length = is.length ∧
      List.zipWith (fun i o => (drawnBits i o).length) is outs = is.map advances ∧
      (List.zipWith drawnBits is outs).flatten = (List.range (is.map advances).sum).map s.streamBit ∧
      runSteps is.length s = .next { s with
        x := s.residueAt (is.map advances).sum
        pending := rest
        sent := s.sent ++ outs.flatten }
end

