-- ==== Sys2Proof/Laws/Decode.lean ====
section
/-! SUPPORT. The fields of a command word. -/

namespace Sys2Proof

@[simp] theorem opField_commandWord (op : OpField) (len : LenField) : opField (commandWord op len) = op := by
  apply BitVec.eq_of_getLsbD_eq
  intro j hj
  rw [opField, commandWord, BitVec.getLsbD_extractLsb', BitVec.getLsbD_append]
  simp [hj]

@[simp] theorem lenField_commandWord (op : OpField) (len : LenField) : lenField (commandWord op len) = len := by
  apply BitVec.eq_of_getLsbD_eq
  intro j hj
  rw [lenField, commandWord, BitVec.getLsbD_extractLsb', BitVec.getLsbD_append]
  simp [hj]

/-- A command word is its two fields. -/
theorem commandWord_fields (w : CmdWord) : commandWord (opField w) (lenField w) = w := by
  apply BitVec.eq_of_getLsbD_eq
  intro j hj
  rw [commandWord, BitVec.getLsbD_append, opField, lenField, BitVec.getLsbD_extractLsb', BitVec.getLsbD_extractLsb']
  by_cases h : j < 24
  · simp [h]
  · simp only [h, decide_false, if_false, Nat.add_sub_cancel' (Nat.le_of_not_lt h)]
    simp; omega

end Sys2Proof
end

