-- ==== Sys2Proof/Laws/State.lean ====
section
/-! SUPPORT. One lemma per field per update of the state. -/

namespace Sys2Proof.Machine

variable (s : State)

@[simp] theorem setX_width (v : Nat) : (s.setX v).width = s.width := rfl
@[simp] theorem setX_n (v : Nat) : (s.setX v).n = s.n := rfl
@[simp] theorem setX_x (v : Nat) : (s.setX v).x = v := rfl
@[simp] theorem setX_seeded (v : Nat) : (s.setX v).seeded = s.seeded := rfl
@[simp] theorem setX_pending (v : Nat) : (s.setX v).pending = s.pending := rfl
@[simp] theorem setX_sent (v : Nat) : (s.setX v).sent = s.sent := rfl
@[simp] theorem setX_resets (v : Nat) : (s.setX v).resets = s.resets := rfl
/-- Written `(rfl)`, as is the next lemma, so that `simp` cites it as a rewrite; as a definitional step it would have
the kernel compare residues by unfolding the power. -/
@[simp] theorem setX_setX (v w : Nat) : (s.setX v).setX w = s.setX w := (rfl)
@[simp] theorem setX_self : s.setX s.x = s := (rfl)

@[simp] theorem loadInstance_width (n x0 : Nat) : (s.loadInstance n x0).width = s.width := rfl
@[simp] theorem loadInstance_n (n x0 : Nat) : (s.loadInstance n x0).n = n := rfl
@[simp] theorem loadInstance_x (n x0 : Nat) : (s.loadInstance n x0).x = x0 := rfl
@[simp] theorem loadInstance_seeded (n x0 : Nat) : (s.loadInstance n x0).seeded = true := rfl
@[simp] theorem loadInstance_pending (n x0 : Nat) : (s.loadInstance n x0).pending = s.pending := rfl
@[simp] theorem loadInstance_sent (n x0 : Nat) : (s.loadInstance n x0).sent = s.sent := rfl
@[simp] theorem loadInstance_resets (n x0 : Nat) : (s.loadInstance n x0).resets = s.resets := rfl

@[simp] theorem send_width (o : OutEvent) : (s.send o).width = s.width := rfl
@[simp] theorem send_n (o : OutEvent) : (s.send o).n = s.n := rfl
@[simp] theorem send_x (o : OutEvent) : (s.send o).x = s.x := rfl
@[simp] theorem send_seeded (o : OutEvent) : (s.send o).seeded = s.seeded := rfl
@[simp] theorem send_pending (o : OutEvent) : (s.send o).pending = s.pending := rfl
@[simp] theorem send_sent (o : OutEvent) : (s.send o).sent = s.sent ++ [o] := rfl
@[simp] theorem send_resets (o : OutEvent) : (s.send o).resets = s.resets := rfl

@[simp] theorem setPending_width (l : List HostMove) : (s.setPending l).width = s.width := rfl
@[simp] theorem setPending_n (l : List HostMove) : (s.setPending l).n = s.n := rfl
@[simp] theorem setPending_x (l : List HostMove) : (s.setPending l).x = s.x := rfl
@[simp] theorem setPending_seeded (l : List HostMove) : (s.setPending l).seeded = s.seeded := rfl
@[simp] theorem setPending_pending (l : List HostMove) : (s.setPending l).pending = l := rfl
@[simp] theorem setPending_sent (l : List HostMove) : (s.setPending l).sent = s.sent := rfl
@[simp] theorem setPending_resets (l : List HostMove) : (s.setPending l).resets = s.resets := rfl

@[simp] theorem resetBlock_width : (resetBlock s).width = s.width := rfl
@[simp] theorem resetBlock_n : (resetBlock s).n = Config.resetN s.resets s.n % 2 ^ s.width := rfl
@[simp] theorem resetBlock_x : (resetBlock s).x = Config.resetX s.resets s.x % 2 ^ s.width := rfl
@[simp] theorem resetBlock_seeded : (resetBlock s).seeded = false := rfl
@[simp] theorem resetBlock_pending : (resetBlock s).pending = s.pending := rfl
@[simp] theorem resetBlock_sent : (resetBlock s).sent = s.sent := rfl
@[simp] theorem resetBlock_resets : (resetBlock s).resets = s.resets + 1 := rfl

/-- Two states with equal fields are equal. -/
theorem State.eq_of_fields {s t : State} (hw : s.width = t.width) (hn : s.n = t.n) (hx : s.x = t.x)
    (hs : s.seeded = t.seeded) (hp : s.pending = t.pending) (ho : s.sent = t.sent) (hr : s.resets = t.resets) :
    s = t := by
  cases s; cases t; simp_all

end Sys2Proof.Machine
end

