-- ==== Sys2Proof/Laws/Ops.lean ====
section
/-! SUPPORT. For each shared operation, one lemma that says all it can do. -/

namespace Sys2Proof.Machine

/-! ### Ends of a command -/

theorem respond_eq (st : Status) (v : RespVal) (s : State) :
    respond st v s = { s with sent := s.sent ++ [.response ⟨st, v⟩] } := rfl

theorem raise_eq (e : CmdError) (s : State) :
    raise e s = { s with sent := s.sent ++ [.response ⟨.error e, 0⟩] } := rfl

theorem emitByte_eq (b : Byte) (s : State) : emitByte b s = { s with sent := s.sent ++ [.byte b] } := rfl

/-- What a guarded command can answer. -/
theorem whenSeeded_cases {s t : State} {run : State → State} (h : whenSeeded s run = .next t) :
    (s.seeded = true ∧ t = run s) ∨ (s.seeded = false ∧ t = raise .notSeeded s) := by
  cases hs : s.seeded <;> simp [whenSeeded, hs] at h
  · exact .inr ⟨rfl, h.symm⟩
  · exact .inl ⟨rfl, h.symm⟩

@[simp] theorem whenSeeded_of_seeded {s : State} (run : State → State) (h : s.seeded = true) :
    whenSeeded s run = .next (run s) := by simp [whenSeeded, h]

@[simp] theorem whenSeeded_of_unseeded {s : State} (run : State → State) (h : s.seeded = false) :
    whenSeeded s run = .next (raise .notSeeded s) := by simp [whenSeeded, h]

/-! ### The recurrence -/

theorem modExp_lt {x e n : Nat} (h : 0 < n) : modExp x e n < n := Nat.mod_lt _ h

/-- Raising to `2 ^ k` is squaring `k` times, reducing each time. -/
theorem modExp_two_pow (x n : Nat) : ∀ k, modExp x (2 ^ k) n = (fun a => a * a % n)^[k] (x % n)
  | 0 => by simp [modExp]
  | k + 1 => by
    rw [Function.iterate_succ_apply', ← modExp_two_pow x n k]
    simp only [modExp]
    rw [pow_succ, pow_mul, sq, ← Nat.mul_mod]

/-- The recurrence by 16 squarings and one multiplication (93_implementation_defined.md G2): a quick way to
evaluate `modExp`, which is the definition of 00_scope.md rule R10. -/
theorem modExp_E_by_squaring (x n : Nat) :
    modExp x Config.E n = (fun a => a * a % n)^[16] (x % n) * x % n := by
  rw [← modExp_two_pow]
  simp only [modExp, Config.E]
  rw [show (65537 : Nat) = 2 ^ 16 + 1 from rfl, pow_succ, Nat.mul_mod, Nat.mul_mod (_ % n) x, Nat.mod_mod]

@[simp] theorem residueAt_zero (s : State) : s.residueAt 0 = s.x := rfl

theorem residueAt_succ (s : State) (k : Nat) :
    s.residueAt (k + 1) = modExp (s.residueAt k) Config.E s.n := rfl

/-- The stream reads nothing but N and X. -/
theorem residueAt_congr {s t : State} (hn : s.n = t.n) (hx : s.x = t.x) : ∀ k, s.residueAt k = t.residueAt k
  | 0 => hx
  | k + 1 => by rw [residueAt_succ, residueAt_succ, residueAt_congr hn hx k, hn]

theorem streamBit_congr {s t : State} (hn : s.n = t.n) (hx : s.x = t.x) (k : Nat) : s.streamBit k = t.streamBit k := by
  simp only [State.streamBit, residueAt_congr hn hx k]

theorem streamByte_congr {s t : State} (hn : s.n = t.n) (hx : s.x = t.x) (i : Nat) :
    s.streamByte i = t.streamByte i := by
  simp only [State.streamByte, streamBit_congr hn hx]

/-- The stream after `a` advances is the stream from its `a`-th residue. -/
theorem residueAt_setX (s : State) (a : Nat) : ∀ k, (s.setX (s.residueAt a)).residueAt k = s.residueAt (a + k)
  | 0 => rfl
  | k + 1 => by rw [residueAt_succ, residueAt_setX s a k]; rfl

theorem streamBit_setX (s : State) (a k : Nat) : (s.setX (s.residueAt a)).streamBit k = s.streamBit (a + k) := by
  simp only [State.streamBit, residueAt_setX]

/-- As `residueAt_setX`, for any state that agrees in N and X. -/
theorem residueAt_of_x {s t : State} {a : Nat} (hn : t.n = s.n) (hx : t.x = s.residueAt a) (k : Nat) :
    t.residueAt k = s.residueAt (a + k) := by
  rw [residueAt_congr (t := s.setX (s.residueAt a)) hn hx, residueAt_setX]

theorem streamByte_setX (s : State) (a i : Nat) :
    (s.setX (s.residueAt (8 * a))).streamByte i = s.streamByte (a + i) := by
  simp only [State.streamByte, streamBit_setX, Nat.mul_add, Nat.add_assoc]

/-- As `streamByte_setX`, for any state that agrees in N and X. -/
theorem streamByte_of_x {s t : State} {a : Nat} (hn : t.n = s.n) (hx : t.x = s.residueAt (8 * a)) (i : Nat) :
    t.streamByte i = s.streamByte (a + i) := by
  rw [streamByte_congr (t := s.setX (s.residueAt (8 * a))) hn hx, streamByte_setX]

/-- Advances keep X below N. -/
theorem residueAt_lt {s : State} (hx : s.x < s.n) : ∀ k, s.residueAt k < s.n
  | 0 => hx
  | _ + 1 => modExp_lt (by omega)

/-- `AdvanceAndExtract()` answers the bit of the current residue and moves X on by one. -/
theorem advanceAndExtract_eq (s : State) : advanceAndExtract s = (s.streamBit 0, s.setX (s.residueAt 1)) := by
  simp only [advanceAndExtract, State.streamBit, residueAt_zero, residueAt_succ, Nat.testBit_zero]
  rfl

/-! ### The byte packer -/

/-- The accumulator after the bits `f 0 … f (k-1)`. -/
def shiftInAll (f : Nat → Bool) (acc : Byte) : Nat → Byte
  | 0 => acc
  | k + 1 => shiftIn (shiftInAll f acc k) (f k)

/-- `k` turns of the packer draw the next `k` bits of the stream and move X on by `k`. -/
theorem packTurn_iterate (acc : Byte) (s : State) (k : Nat) :
    packTurn^[k] (acc, s) = (shiftInAll s.streamBit acc k, s.setX (s.residueAt k)) := by
  induction k with
  | zero => rfl
  | succ k ih => rw [Function.iterate_succ_apply', ih, packTurn, advanceAndExtract_eq, streamBit_setX, residueAt_setX,
      setX_setX, shiftInAll, Nat.add_zero]

/-- One turn of the packer's loop, as arithmetic. -/
theorem shiftIn_ofNat (a : Nat) (b : Bool) :
    shiftIn (BitVec.ofNat 8 a) b = BitVec.ofNat 8 (2 * a + bitNat b) := by
  apply BitVec.eq_of_toNat_eq
  have h : ∀ m, m % 2 = 0 → m ||| 1 = m + 1 := fun m hm => by
    obtain ⟨k, rfl⟩ : ∃ k, m = k <<< 1 := ⟨m / 2, by rw [Nat.shiftLeft_eq]; omega⟩
    rw [← Nat.shiftLeft_add_eq_or_of_lt (by decide)]
  cases b
  · simp [shiftIn, bitNat, Nat.shiftLeft_eq]; omega
  · simp only [shiftIn, bitNat, if_true, BitVec.toNat_or, BitVec.toNat_shiftLeft, BitVec.toNat_ofNat, Nat.shiftLeft_eq]
    rw [show (1 : BitVec 8).toNat = 1 from rfl, h _ (by omega)]
    omega

/-- Eight shifts put the first bit in bit 7 and lose none (42_facade.md rule R120). -/
theorem shiftInAll_eight (f : Nat → Bool) : shiftInAll f 0 8 =
    BitVec.ofNat 8 (bitNat (f 0) * 128 + bitNat (f 1) * 64 + bitNat (f 2) * 32 + bitNat (f 3) * 16 +
      bitNat (f 4) * 8 + bitNat (f 5) * 4 + bitNat (f 6) * 2 + bitNat (f 7)) := by
  rw [show (0 : Byte) = BitVec.ofNat 8 0 from rfl]
  simp only [shiftInAll, shiftIn_ofNat]
  congr 1
  omega

/-- `PackByte()` answers the first byte of the stream and moves X on by 8. -/
theorem packByte_eq (s : State) : packByte s = (s.streamByte 0, s.setX (s.residueAt 8)) := by
  rw [packByte, packTurn_iterate, shiftInAll_eight, State.streamByte, Nat.mul_zero]

/-! ### The loops over bytes -/

theorem streamBytes_succ (s : State) (k : Nat) : s.streamBytes (k + 1) = s.streamBytes k ++ [s.streamByte k] := by
  simp [State.streamBytes, List.range_succ]

theorem streamBytes_congr {s t : State} (hn : s.n = t.n) (hx : s.x = t.x) (k : Nat) :
    s.streamBytes k = t.streamBytes k := by
  simp only [State.streamBytes]
  exact List.map_congr_left fun i _ => streamByte_congr hn hx i

@[simp] theorem streamBytes_length (s : State) (k : Nat) : (s.streamBytes k).length = k := by
  simp [State.streamBytes]

/-- A byte emitted after X was written and a list was sent. -/
theorem emitByte_setX (s : State) (l : List OutEvent) (r z : Nat) (b : Byte) :
    emitByte b (State.setX { s with x := z, sent := s.sent ++ l } r) =
      { s with x := r, sent := s.sent ++ (l ++ [.byte b]) } := by
  simp [emitByte, State.send, State.setX]

/-- One turn of FILL emits the first byte of the stream and moves X on by 8. -/
theorem fillTurn_eq (s : State) : fillTurn s = emitByte (s.streamByte 0) (s.setX (s.residueAt 8)) := by
  rw [fillTurn, packByte_eq]

/-- The loop of FILL emits the first `k` bytes of the stream, in order, and moves X on by `8 k`. -/
theorem fillBytes_eq (k : Nat) (s : State) :
    fillBytes k s = { s with x := s.residueAt (8 * k), sent := s.sent ++ (s.streamBytes k).map .byte } := by
  rw [fillBytes]
  induction k with
  | zero => simp [State.streamBytes]
  | succ k ih =>
    rw [Function.iterate_succ_apply', ih]
    generalize hu : ({ s with x := s.residueAt (8 * k), sent := s.sent ++ (s.streamBytes k).map .byte } : State) = u
    have hn : u.n = s.n := by rw [← hu]
    have hx : u.x = s.residueAt (8 * k) := by rw [← hu]
    rw [fillTurn_eq, streamByte_of_x hn hx, residueAt_of_x hn hx, streamBytes_succ, Nat.add_zero, ← Nat.mul_succ, ← hu,
      emitByte_setX, List.map_append, List.map_singleton]

/-- The loop of U32 and U64 draws the first `k` bytes of the stream, in order, and moves X on by `8 k`. -/
theorem drawBytes_eq (k : Nat) (s : State) :
    drawBytes k s = (s.streamBytes k, s.setX (s.residueAt (8 * k))) := by
  rw [drawBytes]
  induction k with
  | zero => rfl
  | succ k ih =>
    rw [Function.iterate_succ_apply', ih, drawTurn, packByte_eq, streamByte_setX, residueAt_setX, setX_setX,
      streamBytes_succ, Nat.add_zero, ← Nat.mul_succ]

/-! ### Bits and bytes of the stream -/

theorem bitNat_le_one (b : Bool) : bitNat b ≤ 1 := by cases b <;> decide

theorem bitNat_beq_one (b : Bool) : (bitNat b == 1) = b := by cases b <;> rfl

/-- A byte of the stream as a number, the first bit worth 128. -/
theorem streamByte_toNat (s : State) (i : Nat) : (s.streamByte i).toNat =
    bitNat (s.streamBit (8 * i)) * 128 + bitNat (s.streamBit (8 * i + 1)) * 64 +
      bitNat (s.streamBit (8 * i + 2)) * 32 + bitNat (s.streamBit (8 * i + 3)) * 16 +
      bitNat (s.streamBit (8 * i + 4)) * 8 + bitNat (s.streamBit (8 * i + 5)) * 4 +
      bitNat (s.streamBit (8 * i + 6)) * 2 + bitNat (s.streamBit (8 * i + 7)) := by
  rw [State.streamByte, BitVec.toNat_ofNat, Nat.mod_eq_of_lt]
  have h := fun k => bitNat_le_one (s.streamBit k)
  have := h (8 * i); have := h (8 * i + 1); have := h (8 * i + 2); have := h (8 * i + 3)
  have := h (8 * i + 4); have := h (8 * i + 5); have := h (8 * i + 6); have := h (8 * i + 7)
  omega

/-- Bit `7 - j` of byte `i` is bit `8 i + j` of the stream. -/
theorem streamByte_getLsbD (s : State) (i j : Nat) (hj : j < 8) :
    (s.streamByte i).getLsbD (7 - j) = s.streamBit (8 * i + j) := by
  rw [BitVec.getLsbD, streamByte_toNat, Nat.testBit_eq_decide_div_mod_eq, ← bitNat_beq_one (s.streamBit (8 * i + j)),
    beq_eq_decide]
  have h := fun k => bitNat_le_one (s.streamBit k)
  have := h (8 * i); have := h (8 * i + 1); have := h (8 * i + 2); have := h (8 * i + 3)
  have := h (8 * i + 4); have := h (8 * i + 5); have := h (8 * i + 6); have := h (8 * i + 7)
  congr 1
  match j, hj with
  | 0, _ | 1, _ | 2, _ | 3, _ | 4, _ | 5, _ | 6, _ | 7, _ =>
    simp only [Nat.reduceSub, Nat.reducePow, Nat.add_zero, Nat.div_one, eq_iff_iff]
    omega

theorem streamBytes_getD (s : State) {k i : Nat} (h : i < k) : (s.streamBytes k).getD i 0 = s.streamByte i := by
  simp [State.streamBytes, List.getD, h]

theorem streamBytes_add (s : State) (a b : Nat) :
    s.streamBytes (a + b) = s.streamBytes a ++ (s.setX (s.residueAt (8 * a))).streamBytes b := by
  rw [State.streamBytes, State.streamBytes, State.streamBytes, List.range_add, List.map_append, List.map_map]
  exact congrArg _ (List.map_congr_left fun i _ => (streamByte_setX s a i).symm)

theorem byteBits_streamByte (s : State) (i : Nat) :
    byteBits (s.streamByte i) = (List.range 8).map fun j => s.streamBit (8 * i + j) :=
  List.map_congr_left fun j hj => streamByte_getLsbD s i j (List.mem_range.mp hj)

/-- The bytes of the stream carry its bits, in order. -/
theorem streamBytes_bits (s : State) (k : Nat) :
    (s.streamBytes k).flatMap byteBits = (List.range (8 * k)).map s.streamBit := by
  induction k with
  | zero => rfl
  | succ k ih =>
    rw [streamBytes_succ, List.flatMap_append, ih, List.flatMap_singleton, byteBits_streamByte, Nat.mul_succ,
      List.range_add, List.map_append, List.map_map]
    rfl

/-! ### FILL and the word commands -/

/-- All that FILL of `k` bytes does on a seeded block. -/
theorem runFill_eq (k : Nat) (s : State) :
    runFill k s = { s with
      x := s.residueAt (8 * k)
      sent := s.sent ++ (s.streamBytes k).map .byte ++ [.response ⟨.ok, 0⟩] } := by
  rw [runFill, fillBytes_eq]; rfl

/-- All that a word command of `k` bytes does on a seeded block. -/
theorem runWord_eq (k : Nat) (s : State) :
    runWord k s = { s with
      x := s.residueAt (8 * k)
      sent := s.sent ++ [.response ⟨.ok, BitVec.ofNat 64 (littleEndian (s.streamBytes k))⟩] } := by
  rw [runWord, drawBytes_eq]; rfl

/-! ### The word assembly -/

theorem littleEndian_lt : ∀ l : List Byte, littleEndian l < 2 ^ (8 * l.length)
  | [] => by simp [littleEndian]
  | b :: l => by
    have h := littleEndian_lt l
    have hb := b.isLt
    rw [littleEndian, List.length_cons, Nat.mul_add, Nat.mul_one, pow_add]
    omega

/-- Byte `i` of the word is the `i`-th byte drawn. -/
theorem littleEndian_testBit : ∀ (l : List Byte) (i j : Nat), j < 8 →
    (littleEndian l).testBit (8 * i + j) = (l[i]?.getD 0).getLsbD j
  | [], i, j, _ => by simp [littleEndian]
  | b :: l, 0, j, hj => by
    have h : (b.toNat + 2 ^ 8 * littleEndian l).testBit j = b.toNat.testBit j := by
      rw [Nat.add_comm, Nat.testBit_two_pow_mul_add _ b.isLt, if_pos hj]
    simpa [littleEndian, BitVec.getLsbD] using h
  | b :: l, i + 1, j, hj => by
    have h := littleEndian_testBit l i j hj
    rw [littleEndian, Nat.add_comm b.toNat, Nat.testBit_two_pow_mul_add _ b.isLt, if_neg (by omega),
      show 8 * (i + 1) + j - 8 = 8 * i + j by omega, h]
    simp

theorem littleEndian_append (l m : List Byte) :
    littleEndian (l ++ m) = littleEndian l + 2 ^ (8 * l.length) * littleEndian m := by
  induction l with
  | nil => simp [littleEndian]
  | cons b l ih => rw [List.cons_append, littleEndian, littleEndian, ih, List.length_cons, Nat.mul_add 8, pow_add]; ring

/-- `LE(B) = sum(B_i * 2^(8 i))` (42_facade.md rule R125). -/
theorem littleEndian_eq_sum (l : List Byte) :
    littleEndian l = ((List.range l.length).map fun i => (l.getD i 0).toNat * 2 ^ (8 * i)).sum := by
  induction l with
  | nil => rfl
  | cons b l ih =>
    rw [List.length_cons, List.range_succ_eq_map, List.map_cons, List.sum_cons, List.map_map, littleEndian, ih,
      ← List.sum_map_mul_left]
    simp only [List.getD_cons_zero, Nat.mul_zero, pow_zero, mul_one]
    congr 2
    apply List.map_congr_left
    intro i _
    simp [Nat.mul_add, pow_add]; ring

/-- The word of the first `k` bytes of the stream carries their bits, in order (42_facade.md rule R125). -/
theorem wordBits_streamBytes (s : State) {k : Nat} (hk : k ≤ 8) :
    wordBits k (BitVec.ofNat 64 (littleEndian (s.streamBytes k))) = (List.range (8 * k)).map s.streamBit := by
  rw [← streamBytes_bits, State.streamBytes, List.flatMap_map, wordBits]
  refine List.flatMap_congr fun i hi => ?_
  refine List.map_congr_left fun j hj => ?_
  have hi := List.mem_range.mp hi
  have hj := List.mem_range.mp hj
  rw [show 8 * i + 7 - j = 8 * i + (7 - j) by omega, BitVec.getLsbD_ofNat, ← State.streamBytes,
    littleEndian_testBit _ _ _ (by omega), ← List.getD_eq_getElem?_getD, streamBytes_getD s hi,
    decide_eq_true (by omega), Bool.true_and]

/-! ### Operands and values -/

theorem portValue_lt (w v : Nat) : portValue w v < 2 ^ w := Nat.mod_lt _ (Nat.two_pow_pos w)

@[simp] theorem portValue_of_fits {w v : Nat} (h : v < 2 ^ w) : portValue w v = v := Nat.mod_eq_of_lt h

theorem bitValue_toNat (b : Bool) : (bitValue b).toNat = bitNat b := by cases b <;> rfl

theorem byteCount_eq (len : LenField) : byteCount len = len.toNat := rfl

/-- No FILL is longer than `LEN_MAX` (30_encoding.md rule R62). -/
theorem byteCount_le_lenMax (len : LenField) : byteCount len ≤ Config.lenMax := Nat.le_pred_of_lt len.isLt

/-! ### The channels -/

@[simp] theorem bytesOf_append (l m : List OutEvent) : bytesOf (l ++ m) = bytesOf l ++ bytesOf m := by
  induction l with
  | nil => rfl
  | cons o l ih => cases o <;> simp [bytesOf, ih]

@[simp] theorem responsesOf_append (l m : List OutEvent) : responsesOf (l ++ m) = responsesOf l ++ responsesOf m := by
  induction l with
  | nil => rfl
  | cons o l ih => cases o <;> simp [responsesOf, ih]

@[simp] theorem bytesOf_map_byte (l : List Byte) : bytesOf (l.map .byte) = l := by
  induction l with
  | nil => rfl
  | cons b l ih => simp [bytesOf, ih]

@[simp] theorem responsesOf_map_byte (l : List Byte) : responsesOf (l.map .byte) = [] := by
  induction l with
  | nil => rfl
  | cons b l ih => simp [responsesOf, ih]

end Sys2Proof.Machine
end

