-- ==== Sys2Proof/Laws/Exec.lean ====
section
/-! SUPPORT. What a command, an accepted command word and a step can do, each said once. -/

namespace Sys2Proof.Machine

section Arms

variable (s : State)

@[simp] theorem exec_load (n x0 : Nat) : exec (.load n x0) s = execLoad n x0 s := rfl
@[simp] theorem exec_stat : exec .stat s = .next (respond .ok (statusWord s) s) := rfl
@[simp] theorem exec_bit : exec .bit s =
    whenSeeded s fun s => respond .ok (bitValue (advanceAndExtract s).1) (advanceAndExtract s).2 := rfl
@[simp] theorem exec_fill (len : LenField) : exec (.fill len) s = whenSeeded s (runFill len.toNat) := rfl
@[simp] theorem exec_u32 : exec .u32 s = whenSeeded s (runWord 4) := rfl
@[simp] theorem exec_u64 : exec .u64 s = whenSeeded s (runWord 8) := rfl
@[simp] theorem exec_byte : exec .byte s = whenSeeded s (runFill 1) := rfl
@[simp] theorem exec_tryfill (len : LenField) : exec (.tryfill len) s = whenSeeded s (runFill len.toNat) := rfl
@[simp] theorem exec_nopfill : exec .nopfill s = whenSeeded s (runFill 0) := rfl

end Arms

/-- A command that ends in an error: only its response is new. -/
abbrev Raises (s t : State) : Prop := ∃ e, t = raise e s

/-- A LOAD whose checks pass. -/
abbrev Begins (i : Instr) (s t : State) : Prop :=
  ∃ n x0, i = .load n x0 ∧ ¬ badModulus (portValue s.width n) ∧
    ¬ badSeed (portValue s.width n) (portValue s.width x0) ∧
    t = respond .ok 0 (s.loadInstance (portValue s.width n) (portValue s.width x0))

/-- A command that draws from the stream, or STAT, which draws nothing. -/
abbrev Draws (i : Instr) (s t : State) : Prop :=
  (∀ n x0, i ≠ .load n x0) ∧ (i = .stat ∨ s.seeded = true) ∧
    ∃ (bs : List Byte) (v : RespVal),
      t = { s with
        x := s.residueAt (advances i)
        sent := s.sent ++ bs.map .byte ++ [.response ⟨.ok, v⟩] }

theorem runFill_draws {i : Instr} {s : State} (k : Nat) (hk : advances i = 8 * k) (hi : ∀ n x0, i ≠ .load n x0)
    (hs : s.seeded = true) : Draws i s (runFill k s) :=
  ⟨hi, .inr hs, s.streamBytes k, 0, by rw [runFill_eq, hk]⟩

theorem runWord_draws {i : Instr} {s : State} (k : Nat) (hk : advances i = 8 * k) (hi : ∀ n x0, i ≠ .load n x0)
    (hs : s.seeded = true) : Draws i s (runWord k s) :=
  ⟨hi, .inr hs, [], BitVec.ofNat 64 (littleEndian (s.streamBytes k)), by
    rw [runWord_eq, hk]; simp only [List.map_nil, List.append_nil]⟩

/-- A guarded command raises or draws. -/
theorem whenSeeded_draws {i : Instr} {s : State} {run : State → State} (h : s.seeded = true → Draws i s (run s)) :
    ∃ t, whenSeeded s run = .next t ∧ (Raises s t ∨ Begins i s t ∨ Draws i s t) := by
  cases hs : s.seeded
  · exact ⟨_, whenSeeded_of_unseeded run hs, .inl ⟨_, rfl⟩⟩
  · exact ⟨_, whenSeeded_of_seeded run hs, .inr (.inr (h hs))⟩

/-- Every command answers a next state, in one of three ways. -/
theorem exec_cases (i : Instr) (s : State) :
    ∃ t, exec i s = .next t ∧ (Raises s t ∨ Begins i s t ∨ Draws i s t) := by
  cases i with
  | load n x0 =>
    simp only [exec, execLoad]
    split
    · exact ⟨_, rfl, .inl ⟨_, rfl⟩⟩
    · split
      · exact ⟨_, rfl, .inl ⟨_, rfl⟩⟩
      · exact ⟨_, rfl, .inr (.inl ⟨n, x0, rfl, ‹_›, ‹_›, rfl⟩)⟩
  | stat => exact ⟨_, rfl, .inr (.inr ⟨nofun, .inl rfl, [], statusWord s, by simp [respond, State.send, advances]⟩)⟩
  | bit =>
    refine whenSeeded_draws (i := .bit) (s := s)
      (run := fun s => respond .ok (bitValue (advanceAndExtract s).1) (advanceAndExtract s).2)
      fun hs => ⟨nofun, .inr hs, [], bitValue (s.streamBit 0), ?_⟩
    simp [advanceAndExtract_eq, respond, State.send, State.setX, advances]
  | fill len => exact whenSeeded_draws (runFill_draws _ rfl nofun)
  | u32 => exact whenSeeded_draws (runWord_draws 4 rfl nofun)
  | u64 => exact whenSeeded_draws (runWord_draws 8 rfl nofun)
  | byte => exact whenSeeded_draws (runFill_draws 1 rfl nofun)
  | tryfill len => exact whenSeeded_draws (runFill_draws _ rfl nofun)
  | nopfill => exact whenSeeded_draws (runFill_draws 0 rfl nofun)

/-- The same, from a known answer. -/
theorem exec_inv {i : Instr} {s t : State} (h : exec i s = .next t) : Raises s t ∨ Begins i s t ∨ Draws i s t := by
  obtain ⟨t', h', hc⟩ := exec_cases i s
  cases h.symm.trans h'
  exact hc

/-- Every accepted command answers a next state: the command its word decodes to runs, or it is illegal. -/
theorem accept_cases (c : Command) (s : State) :
    ∃ t, accept c s = .next t ∧
      ((∃ e, decode c = .error e ∧ t = raise .illegalCmd s) ∨
        ∃ i, decode c = .ok i ∧ exec i s = .next t ∧ (Raises s t ∨ Begins i s t ∨ Draws i s t)) := by
  cases hd : decode c with
  | error e => exact ⟨_, by simp [accept, hd], .inl ⟨e, rfl, rfl⟩⟩
  | ok i =>
    obtain ⟨t, ht, hc⟩ := exec_cases i s
    exact ⟨t, by simp [accept, hd, ht], .inr ⟨i, rfl, ht, hc⟩⟩

theorem accept_inv {c : Command} {s t : State} (h : accept c s = .next t) :
    (∃ e, decode c = .error e ∧ t = raise .illegalCmd s) ∨
      ∃ i, decode c = .ok i ∧ exec i s = .next t ∧ (Raises s t ∨ Begins i s t ∨ Draws i s t) := by
  obtain ⟨t', h', hc⟩ := accept_cases c s
  cases h.symm.trans h'
  exact hc

/-- Abandoning a command sends some beats of the byte channel and does nothing else. -/
theorem abandon_cases (c : Command) (s : State) :
    ∃ t, accept c s = .next t ∧
      abandon c s = { s with
        sent := s.sent ++ (beatsBetween s.sent t.sent).take
          (Config.bytesBeforeReset s.resets s.width s.n s.x c.word.toNat) } := by
  obtain ⟨t, ht, -⟩ := accept_cases c s
  exact ⟨t, ht, by simp [abandon, ht]⟩

/-- What left between two points, when the later one extends the earlier. -/
theorem beatsBetween_append (l m : List OutEvent) : beatsBetween l (l ++ m) = m.filter OutEvent.isByte := by
  simp [beatsBetween]

/-- A step answers a next state: idle, or a move taken. -/
theorem step_cases (s : State) :
    ∃ t, step s = .next t ∧
      ((s.pending = [] ∧ t = s) ∨
        (∃ c rest, s.pending = .command c :: rest ∧ accept c (s.setPending rest) = .next t) ∨
        (∃ rest, s.pending = .reset :: rest ∧ t = resetBlock (s.setPending rest)) ∨
        ∃ c rest, s.pending = .resetDuring c :: rest ∧ t = resetBlock (abandon c (s.setPending rest))) := by
  cases hp : s.pending with
  | nil => exact ⟨s, by simp [step, hp], .inl ⟨rfl, rfl⟩⟩
  | cons m rest =>
    cases m with
    | command c =>
      obtain ⟨t, ht, -⟩ := accept_cases c (s.setPending rest)
      exact ⟨t, by simp [step, hp, takeMove, ht], .inr (.inl ⟨c, rest, rfl, ht⟩)⟩
    | reset => exact ⟨_, by simp [step, hp, takeMove], .inr (.inr (.inl ⟨rest, rfl, rfl⟩))⟩
    | resetDuring c => exact ⟨_, by simp [step, hp, takeMove], .inr (.inr (.inr ⟨c, rest, rfl, rfl⟩))⟩

theorem step_inv {s t : State} (h : step s = .next t) :
    (s.pending = [] ∧ t = s) ∨
      (∃ c rest, s.pending = .command c :: rest ∧ accept c (s.setPending rest) = .next t) ∨
      (∃ rest, s.pending = .reset :: rest ∧ t = resetBlock (s.setPending rest)) ∨
      ∃ c rest, s.pending = .resetDuring c :: rest ∧ t = resetBlock (abandon c (s.setPending rest)) := by
  obtain ⟨t', h', hc⟩ := step_cases s
  cases h.symm.trans h'
  exact hc

end Sys2Proof.Machine
end

