-- ==== Sys2Proof/Laws/PerInstr.lean ====
section
/-! SUPPORT. Statements about every instruction, one lemma per constructor. -/

namespace Sys2Proof.Laws

/-- An instruction and the core command it expands to are presented by the same transaction, so the engine
cannot tell them apart (30_encoding.md rule R72). -/
def SpelledAlike.Statement (i : Instr) : Prop := i.expand.isCore = true ∧ encode i.expand = encode i

theorem SpelledAlike.load (n x0 : Nat) : SpelledAlike.Statement (.load n x0) := ⟨rfl, rfl⟩
theorem SpelledAlike.stat : SpelledAlike.Statement .stat := ⟨rfl, rfl⟩
theorem SpelledAlike.bit : SpelledAlike.Statement .bit := ⟨rfl, rfl⟩
theorem SpelledAlike.fill (len : LenField) : SpelledAlike.Statement (.fill len) := ⟨rfl, rfl⟩
theorem SpelledAlike.u32 : SpelledAlike.Statement .u32 := ⟨rfl, rfl⟩
theorem SpelledAlike.u64 : SpelledAlike.Statement .u64 := ⟨rfl, rfl⟩
theorem SpelledAlike.byte : SpelledAlike.Statement .byte := ⟨rfl, rfl⟩
theorem SpelledAlike.tryfill (len : LenField) : SpelledAlike.Statement (.tryfill len) := ⟨rfl, rfl⟩
theorem SpelledAlike.nopfill : SpelledAlike.Statement .nopfill := ⟨rfl, rfl⟩

end Sys2Proof.Laws
end

