-- ==== Sys2Proof/Laws/Run.lean ====
section
/-! SUPPORT. Runs, step by step. -/

namespace Sys2Proof.Machine

@[simp] theorem runSteps_zero (s : State) : runSteps 0 s = .next s := rfl

theorem runSteps_succ {k : Nat} {s t : State} (h : step s = .next t) : runSteps (k + 1) s = runSteps k t := by
  simp only [runSteps, Host.Core.run, Sys2Proof.core, h]

/-- A run of any length answers a next state. -/
theorem runSteps_total : ∀ (k : Nat) (s : State), ∃ t, runSteps k s = .next t
  | 0, s => ⟨s, rfl⟩
  | k + 1, s => by
    obtain ⟨t, ht, -⟩ := step_cases s
    obtain ⟨u, hu⟩ := runSteps_total k t
    exact ⟨u, (runSteps_succ ht).trans hu⟩

/-- A run in two parts. -/
theorem runSteps_add : ∀ (j k : Nat) {s t : State}, runSteps j s = .next t → runSteps (j + k) s = runSteps k t
  | 0, k, s, t, h => by cases h; rw [Nat.zero_add]
  | j + 1, k, s, t, h => by
    obtain ⟨u, hu, -⟩ := step_cases s
    rw [runSteps_succ hu] at h
    rw [Nat.add_right_comm, runSteps_succ hu, runSteps_add j k h]

/-- A relation between states that every pair of steps keeps, every pair of runs keeps. -/
theorem runSteps_related {R : State → State → Prop}
    (hR : ∀ s t, R s t → ∃ s' t', step s = .next s' ∧ step t = .next t' ∧ R s' t') :
    ∀ (k : Nat) {s t : State}, R s t → ∃ s' t', runSteps k s = .next s' ∧ runSteps k t = .next t' ∧ R s' t'
  | 0, s, t, h => ⟨s, t, rfl, rfl, h⟩
  | k + 1, s, t, h => by
    obtain ⟨s1, t1, hs, ht, h1⟩ := hR s t h
    obtain ⟨s2, t2, hs2, ht2, h2⟩ := runSteps_related hR k h1
    exact ⟨s2, t2, (runSteps_succ hs).trans hs2, (runSteps_succ ht).trans ht2, h2⟩

end Sys2Proof.Machine
end

