-- ==== Sys2Proof/Tests/Slice0.lean ====
section
/-! SUPPORT. Tests. Expected words, values and residues are those of 95_test_vectors.md (part and row in each
docstring); a `witness_` theorem shows operands and a state that meet the hypotheses of the obligation it names. -/

namespace Sys2Proof.Tests

open Sys2Proof Sys2Proof.Machine

/-! ### Small states -/

/-- A seeded 32-bit block with nothing pending. -/
def block (n x : Nat) : State :=
  { width := 32, n := n, x := x, seeded := true, pending := [], sent := [], resets := 1 }

/-- An unseeded 32-bit block with the host's moves `l` pending. -/
def blank (l : List HostMove) : State :=
  { width := 32, n := 9, x := 77, seeded := false, pending := l, sent := [], resets := 1 }

/-- A command with zeros on its ports. -/
def word (w : CmdWord) : Command := ⟨w, 0, 0⟩

/-- An outcome is a next state, and the state passes a check. -/
def answers (o : Host.Outcome State Fault Refusal) (p : State → Bool) : Bool :=
  match o with
  | .next t => p t
  | .fault _ => false
  | .refused _ => false

theorem answers_next {o : Host.Outcome State Fault Refusal} {p : State → Bool} (h : answers o p = true) :
    ∃ t, o = .next t ∧ p t = true := by
  cases o with
  | next t => exact ⟨t, rfl, h⟩
  | fault f => cases f
  | refused r => cases h

/-- The residue after the command and what it sent. -/
def gives (o : Host.Outcome State Fault Refusal) (x : Nat) (l : List OutEvent) : Bool :=
  answers o fun t => t.x == x && t.sent == l

/-! ### WellFormed: an ill-formed term for each check -/

theorem test_wf_refuses_wide_modulus : (Instr.load (2 ^ 32) 5).wellFormed 32 = false := by decide
theorem test_wf_refuses_wide_seed : (Instr.load 143 (2 ^ 32)).wellFormed 32 = false := by decide
theorem test_wf_takes_widest : (Instr.load (2 ^ 32 - 1) (2 ^ 32 - 2)).wellFormed 32 = true := by decide
theorem test_width_refuses_zero : ¬ ValidWidth 0 := by decide
theorem test_width_refuses_33 : ¬ ValidWidth 33 := by decide
theorem test_width_takes_64 : ValidWidth 64 := by decide
theorem test_ports_refuse_wide_modulus : ¬ Command.fits 32 ⟨0x01000000#32, 2 ^ 32, 0⟩ := by decide
theorem test_ports_refuse_wide_seed : ¬ Command.fits 32 ⟨0x01000000#32, 0, 2 ^ 32⟩ := by decide

/-! ### Decode: the words of part 2.7, bit by bit -/

theorem test_decode_load : decode ⟨0b00000001000000000000000000000000#32, 143, 2⟩ = .ok (.load 143 2) := by decide
theorem test_decode_stat : decode (word 0b00000010000000000000000000000000#32) = .ok .stat := by decide
theorem test_decode_bit : decode (word 0b00000011000000000000000000000000#32) = .ok .bit := by decide
theorem test_decode_fill : decode (word 0b00000100000000010000001000000011#32) = .ok (.fill 0x010203) := by decide
theorem test_decode_fill_longest : decode (word 0b00000100111111111111111111111111#32) = .ok (.fill 16777215) := by
  decide
theorem test_decode_u32 : decode (word 0b00000101000000000000000000000000#32) = .ok .u32 := by decide
theorem test_decode_u64 : decode (word 0b00000110000000000000000000000000#32) = .ok .u64 := by decide
theorem test_decode_byte : decode (word 0b00000100000000000000000000000001#32) = .ok (.fill 1) := by decide
theorem test_decode_tryfill : decode (word 0b00000100000000000000000000000101#32) = .ok (.fill 5) := by decide
theorem test_decode_nopfill : decode (word 0b00000100000000000000000000000000#32) = .ok (.fill 0) := by decide

/-- The illegal words of part 2.7, by cause. -/
theorem test_decode_reserved :
    [0x00000000#32, 0x00000001#32, 0x07000000#32, 0x80000000#32, 0xFFFFFFFF#32].map (fun w => decode (word w)) =
      [.error (.reservedOp 0x00), .error (.reservedOp 0x00), .error (.reservedOp 0x07), .error (.reservedOp 0x80),
        .error (.reservedOp 0xFF)] := by decide

theorem test_decode_nonzero_len :
    [0x01000001#32, 0x02800000#32, 0x03000001#32, 0x05FFFFFF#32, 0x06000001#32].map (fun w => decode (word w)) =
      [.error (.nonzeroLen 1 1), .error (.nonzeroLen 2 0x800000), .error (.nonzeroLen 3 1),
        .error (.nonzeroLen 5 0xFFFFFF), .error (.nonzeroLen 6 1)] := by decide

theorem test_encode_words :
    [encodeWord (.load 143 2), encodeWord .stat, encodeWord .bit, encodeWord (.fill 0xFFFFFF), encodeWord .u32,
        encodeWord .u64, encodeWord .byte, encodeWord (.tryfill 5), encodeWord .nopfill] =
      [0x01000000#32, 0x02000000#32, 0x03000000#32, 0x04FFFFFF#32, 0x05000000#32, 0x06000000#32, 0x04000001#32,
        0x04000005#32, 0x04000000#32] := by decide

theorem test_table_word : decodeTableWord 32 0x04000003 = some (.fill 3) := by decide
theorem test_table_word_illegal : decodeTableWord 32 0x02000001 = none := by decide

/-- A word placed where the step takes its next command is the next thing to run (program P1, steps 2 and 3). -/
theorem test_fetch_stat : ∃ t, step (State.reset.withFetchWord 32 0x02000000) = .next t ∧
    t.sent = [.response ⟨.ok, 0⟩] := ⟨_, rfl, rfl⟩
theorem test_fetch_bit : ∃ t, step (State.reset.withFetchWord 32 0x03000000) = .next t ∧
    t.sent = [.response ⟨.error .notSeeded, 0⟩] := ⟨_, rfl, rfl⟩

/-! ### One step of each command -/

/-- Part 2.6. -/
theorem test_load : exec (.load 143 142) (blank []) =
    .next { blank [] with n := 143, x := 142, seeded := true, sent := [.response ⟨.ok, 0⟩] } := rfl
/-- Program P4, step 4: the modulus error outranks the seed error. -/
theorem test_load_modulus_first : exec (.load 10 12) (block 143 2) =
    .next { block 143 2 with sent := [.response ⟨.error .modulusInvariant, 0⟩] } := rfl
/-- Part 2.8. -/
theorem test_stat : exec .stat (block 143 2) = .next { block 143 2 with sent := [.response ⟨.ok, 1⟩] } := rfl
/-- Part 2.2, number 1. -/
theorem test_bit_even : gives (exec .bit (block 143 2)) 84 [.response ⟨.ok, 0⟩] = true := by decide +kernel
/-- Part 2.2: after `LOAD 143, 7` the first BIT returns 1; X runs 7, 50. -/
theorem test_bit_odd : gives (exec .bit (block 143 7)) 50 [.response ⟨.ok, 1⟩] = true := by decide +kernel
/-- Part 2.4, row 10. -/
theorem test_fill : gives (exec (.fill 3) (block 3233 42)) 42
    [.byte 0x66, .byte 0xD6, .byte 0x6D, .response ⟨.ok, 0⟩] = true := by decide +kernel
/-- Program P3, step 2. -/
theorem test_fill_wide : gives (exec (.fill 4) (block 4292870399 123456789)) 1348574007
    [.byte 0x81, .byte 0x5F, .byte 0x17, .byte 0x27, .response ⟨.ok, 0⟩] = true := by decide +kernel
/-- Part 2.5, row 3. -/
theorem test_u32 : gives (exec .u32 (block 3233 42)) 2909 [.response ⟨.ok, 0x666DD666⟩] = true := by decide +kernel
/-- Part 2.5, row 5. -/
theorem test_u64 : gives (exec .u64 (block 4292870399 123456789)) 154946543
    [.response ⟨.ok, 0xD731CEE627175F81⟩] = true := by decide +kernel
/-- Part 2.9: a 64-bit block. -/
theorem test_u64_width_64 :
    gives (exec .u64 { block 0xFFFFFFEA00000055 0x0123456789ABCDEF with width := 64 }) 0xB0884312B77C71B8
      [.response ⟨.ok, 0x7BFAAE9B5AB1CAD5⟩] = true := by decide +kernel
/-- Part 1.3. -/
theorem test_byte : gives (exec .byte (block 143 3)) 3 [.byte 0xEE, .response ⟨.ok, 0⟩] = true := by decide +kernel
/-- Part 2.4, row 17. -/
theorem test_tryfill : gives (exec (.tryfill 2) (block 9 3)) 0
    [.byte 0x80, .byte 0x00, .response ⟨.ok, 0⟩] = true := by decide +kernel
/-- Part 2.4, row 23. -/
theorem test_nopfill : gives (exec .nopfill (block 143 2)) 2 [.response ⟨.ok, 0⟩] = true := by decide
/-- Part 2.4, row 24. -/
theorem test_nopfill_unseeded : exec .nopfill (blank []) =
    .next { blank [] with sent := [.response ⟨.error .notSeeded, 0⟩] } := rfl
/-- Part 2.2, corner cases, row 3: an illegal word outranks the missing seed. -/
theorem test_illegal_unseeded : accept (word 0x03000001#32) (blank []) =
    .next { blank [] with sent := [.response ⟨.error .illegalCmd, 0⟩] } := rfl

/-! ### Witnesses: encoding -/

theorem witness_DecodeEncodeAgree : (Instr.load 143 2).isCore = true ∧
    decode ⟨0x01000000#32, 143, 2⟩ = .ok (.load 143 2) ∧ (⟨0x01000000#32, 143, 2⟩ : Command).word =
      encodeWord (.load 143 2) := by decide
theorem witness_IllegalWordsRaise :
    (∃ e, decode (word 0x00000000#32) = .error e) ∧ (∃ e, decode (word 0x07000000#32) = .error e) ∧
      (∃ e, decode (word 0x01000001#32) = .error e) ∧ ∃ e, decode (word 0x06FFFFFF#32) = .error e :=
  ⟨⟨_, rfl⟩, ⟨_, rfl⟩, ⟨_, rfl⟩, ⟨_, rfl⟩⟩
theorem witness_PortsReadByLoadOnly_load :
    (3 < 2 ^ (blank []).width ∧ 0 < 3 ∧ 3 % 2 = 1 ∧ 1 < 3) ∧
      (4294967295 < 2 ^ (blank []).width ∧ 4294967294 < 4294967295 ∧ 4294967295 % 2 = 1 ∧ 1 < 4294967295) := by decide
theorem witness_PortsReadByLoadOnly_others :
    (∀ n x0, decode ⟨0x02000000#32, 5, 6⟩ ≠ .ok (.load n x0)) ∧
      ∀ n x0, decode ⟨0x01000001#32, 5, 6⟩ ≠ .ok (.load n x0) := by
  refine ⟨fun n x0 h => ?_, fun n x0 h => ?_⟩
  · rw [show decode ⟨0x02000000#32, 5, 6⟩ = .ok .stat from rfl] at h; cases h
  · rw [show decode ⟨0x01000001#32, 5, 6⟩ = .error (.nonzeroLen 1 1) from rfl] at h; cases h
theorem witness_PseudoCommandsAreFills : (block 3 0).seeded = true ∧ (blank []).seeded = false := by decide

/-! ### Witnesses: the step -/

theorem witness_StepRunsDecodedCommand :
    (blank [.command (word 0x02000000#32)]).pending = .command (word 0x02000000#32) :: [] ∧
      decode (word 0x02000000#32) = .ok .stat := by decide
theorem witness_StepRunsDecodedCommand_illegal :
    (blank [.command (word 0x07000000#32)]).pending = .command (word 0x07000000#32) :: [] ∧
      decode (word 0x07000000#32) = .error (.reservedOp 7) := by decide
theorem witness_IdleBlockHoldsState : (block 143 2).pending = [] := rfl
/-- OneResponseAfterAllBytes: a FILL of two bytes (part 2.4, row 4). -/
theorem witness_OneResponseAfterAllBytes : decode (word 0x04000002#32) = .ok (.fill 2) ∧
    gives (accept (word 0x04000002#32) (block 143 7)) 7 [.byte 0xAA, .byte 0xAA, .response ⟨.ok, 0⟩] = true := by
  decide +kernel
theorem witness_OutputsOnlyAppend : ∃ t, step (blank [.command (word 0x02000000#32)]) = .next t := ⟨_, rfl⟩

/-! ### Witnesses: LOAD and STAT -/

/-- The smallest and the largest modulus of 32 bits, with the smallest and the largest seed. -/
theorem witness_LoadStartsInstance :
    (3 < 2 ^ (block 143 2).width ∧ 3 % 2 = 1 ∧ 1 < 3 ∧ 0 < 3 ∧ 2 < 3) ∧
      (4294967295 < 2 ^ (blank []).width ∧ 4294967295 % 2 = 1 ∧ 1 < 4294967295 ∧ 4294967294 < 4294967295) := by decide
theorem witness_LoadChecksInOrder_modulus : (0 < 2 ^ (block 3 0).width ∧ 1 < 2 ^ (block 3 0).width) ∧
    (0 % 2 = 0 ∨ 0 = 1) ∧ (1 % 2 = 0 ∨ 1 = 1) ∧ (4294967294 % 2 = 0 ∨ 4294967294 = 1) := by decide
theorem witness_LoadChecksInOrder_seed : 3 < 2 ^ (block 3 0).width ∧ 4294967295 < 2 ^ (block 3 0).width ∧
    3 % 2 = 1 ∧ 3 ≠ 1 ∧ 3 ≤ 3 ∧ 3 ≤ 4294967295 := by decide
theorem witness_LoadChecksInOrder_ok : 3 < 2 ^ (block 3 0).width ∧ 2 < 2 ^ (block 3 0).width ∧
    3 % 2 = 1 ∧ 3 ≠ 1 ∧ 2 < 3 := by decide
theorem witness_StatReturnsSeeded : (1 : LenField) ≠ 0 ∧ (0xFFFFFF : LenField) ≠ 0 := by decide

/-! ### Witnesses: the recurrence and BIT -/

theorem witness_ModExpFacts : (1 ≤ 1 ∧ 1 ≤ 1) ∧ 1 < 2 ∧ 65537 % 2 = 1 := by decide
theorem witness_BitResult : (block 143 2).seeded = true ∧ (blank []).seeded = false ∧ (1 : LenField) ≠ 0 := by decide
theorem witness_BitsAfterLoad : 3 < 2 ^ (blank []).width ∧ 3 % 2 = 1 ∧ 1 < 3 ∧ 2 < 3 ∧
    (blank [.command ⟨0x01000000#32, 3, 2⟩, .command (word 0x03000000#32)]).pending =
      .command (encode (.load 3 2)) :: List.replicate 1 (.command (encode .bit)) := by decide
theorem witness_BitsAfterLoad_none :
    (blank [.command ⟨0x01000000#32, 3, 2⟩]).pending =
      .command (encode (.load 3 2)) :: List.replicate 0 (.command (encode .bit)) := by decide
theorem witness_StreamEventuallyPeriodic : (block 3 2).seeded = true ∧ (block 3 2).InstanceOk ∧
    ∀ x y, x < (block 3 2).n → y < (block 3 2).n →
      modExp x 65537 (block 3 2).n = modExp y 65537 (block 3 2).n → x = y := by
  have h : ∀ x < 3, modExp x 65537 3 = x := by decide +kernel
  refine ⟨rfl, by decide, fun x y hx hy he => ?_⟩
  rw [show (block 3 2).n = 3 from rfl] at *
  rw [← h x hx, ← h y hy, he]
theorem witness_DegenerateResidues_zero : (block 3 0).seeded = true ∧ (block 3 0).InstanceOk ∧ (block 3 0).x = 0 := by
  decide
theorem witness_DegenerateResidues_last :
    (block 3 2).seeded = true ∧ (block 3 2).InstanceOk ∧ (block 3 2).x = (block 3 2).n - 1 := by decide
theorem witness_DegenerateResidues_one : (block 3 1).seeded = true ∧ (block 3 1).InstanceOk ∧ (block 3 1).x = 1 := by
  decide
theorem witness_DegenerateResidues_factor : 11 ∣ (block 143 11).n ∧ 11 ∣ (block 143 11).x := by decide
/-- The row n = 15 of 41_bitgenerator.md rule R105. -/
theorem witness_DegenerateResidues_identity : (block 15 7).InstanceOk ∧ (block 15 7).seeded = true ∧
    Squarefree (block 15 7).n ∧ ∀ p, p.Prime → p ∣ (block 15 7).n → (p - 1) ∣ 65536 := by
  refine ⟨by decide, rfl, ?_, fun p hp hd => ?_⟩
  · rw [show (block 15 7).n = 3 * 5 from rfl, Nat.squarefree_mul_iff]
    exact ⟨by decide, (by norm_num : Nat.Prime 3).squarefree, (by norm_num : Nat.Prime 5).squarefree⟩
  · rcases (hp.dvd_mul).mp (show p ∣ 3 * 5 from hd) with h | h
    · rw [(Nat.prime_dvd_prime_iff_eq hp (by norm_num)).mp h]; decide
    · rw [(Nat.prime_dvd_prime_iff_eq hp (by norm_num)).mp h]; decide
theorem witness_ExponentConditionIsSilent : (block 2752557 3).seeded = true ∧ (block 2752557 3).n = 2752557 ∧
    (block 2752557 3).x = 3 ∧ (block 2752557 15).x = 15 ∧ (block 9 3).n = 9 ∧ (block 9 3).x = 3 ∧
    (block 9 0).x = 0 := by decide
theorem witness_ExponentConditionDecidesPermutation : Nat.Prime 11 ∧ Nat.Prime 13 ∧ 11 ≠ 13 ∧
    (block 143 2).n = 11 * 13 ∧ (block 143 2).seeded = true ∧ (block 143 2).InstanceOk ∧
    Nat.gcd 65537 (Nat.lcm (11 - 1) (13 - 1)) = 1 := by
  refine ⟨by norm_num, by norm_num, by decide, rfl, rfl, by decide, by decide +kernel⟩

/-! ### Witnesses: the facade -/

theorem witness_FillResult : (block 143 7).seeded = true ∧ (blank []).seeded = false ∧
    ((Instr.fill 0xFFFFFF = .fill 0xFFFFFF ∨ Instr.fill 0xFFFFFF = .tryfill 0xFFFFFF ∨
        (Instr.fill 0xFFFFFF = .byte ∧ (0xFFFFFF : LenField) = 1) ∨
        (Instr.fill 0xFFFFFF = .nopfill ∧ (0xFFFFFF : LenField) = 0)) ∧
      (Instr.byte = .fill 1 ∨ Instr.byte = .tryfill 1 ∨ (Instr.byte = .byte ∧ (1 : LenField) = 1) ∨
        (Instr.byte = .nopfill ∧ (1 : LenField) = 0)) ∧
      (Instr.nopfill = .fill 0 ∨ Instr.nopfill = .tryfill 0 ∨ (Instr.nopfill = .byte ∧ (0 : LenField) = 1) ∨
        (Instr.nopfill = .nopfill ∧ (0 : LenField) = 0))) := by decide
theorem witness_EmptyFill : (block 143 2).seeded = true ∧ (blank []).seeded = false := by decide
theorem witness_U32Result : (block 3233 42).seeded = true ∧ (blank []).seeded = false ∧ (1 : LenField) ≠ 0 ∧
    3 < 4 ∧ 7 < 8 ∧ 32 ≤ 32 := by decide
theorem witness_U64Result : (block 3233 42).seeded = true ∧ (blank []).seeded = false ∧ (0x10 : LenField) ≠ 0 ∧
    7 < 8 := by decide
theorem witness_StreamIsComposable : (block 3233 42).seeded = true ∧
    (0 : LenField).toNat = (0 : LenField).toNat + (0 : LenField).toNat ∧
    (0xFFFFFF : LenField).toNat = (0xFFFFFE : LenField).toNat + (1 : LenField).toNat ∧
    ({ block 3233 42 with pending := List.replicate 8 (.command (encode .bit)) } : State).pending =
      List.replicate 8 (.command (encode .bit)) ++ [] := by decide
theorem witness_WordsAreFillsLittleEndian : (block 3233 42).seeded = true := rfl
theorem witness_AdvancesPerCommand : (block 143 2).seeded = true ∧
    3 < 2 ^ (block 143 2).width ∧ 2 < 2 ^ (block 143 2).width ∧ (∃ t, exec (.load 3 2) (block 143 2) = .next t) ∧ (∃ t, exec .stat (block 143 2) = .next t) ∧
    (∃ t, exec .bit (block 143 2) = .next t) ∧ (∃ t, exec (.fill 0) (block 143 2) = .next t) ∧
    (∃ t, exec .u32 (block 143 2) = .next t) ∧ ∃ t, exec .u64 (block 143 2) = .next t :=
  have h := fun i => (exec_cases i (block 143 2)).imp fun _ h => h.1
  ⟨rfl, by decide, by decide, h _, h _, h _, h _, h _, h _⟩
theorem witness_AdvancesPerCommand_error : ∃ t, accept ⟨0x01000000#32, 144, 5⟩ (block 143 2) = .next t ∧
    t.sent.getLast? = some (.response ⟨.error .modulusInvariant, 0⟩) := ⟨_, rfl, rfl⟩

/-! ### Witnesses: errors -/

theorem witness_StatusOfEveryCommand : Command.fits 32 ⟨0x01000000#32, 0, 0⟩ ∧
    Command.fits 32 ⟨0x01000000#32, 4294967295, 4294967295⟩ := by decide
theorem witness_ErrorPriority_illegal : decode (word 0x03000001#32) = .error (.nonzeroLen 3 1) := by decide
theorem witness_ErrorPriority_unseeded : (blank []).seeded = false ∧ decode (word 0x03000000#32) = .ok .bit ∧
    decode (word 0x04000000#32) = .ok (.fill 0) ∧ decode (word 0x05000000#32) = .ok .u32 ∧
    decode (word 0x06000000#32) = .ok .u64 := by decide
/-- Program P4, step 4, and n = 0 and 1 with every seed out of range. -/
theorem witness_ErrorPriority_modulus : Command.fits 32 ⟨0x01000000#32, 10, 12⟩ ∧
    decode ⟨0x01000000#32, 10, 12⟩ = .ok (.load 10 12) ∧ (10 % 2 = 0 ∨ 10 ≤ 1) ∧ (0 % 2 = 0 ∨ 0 ≤ 1) ∧
    (1 % 2 = 0 ∨ 1 ≤ 1) := by decide
theorem witness_ErrorPriority_seed : Command.fits 32 ⟨0x01000000#32, 3, 3⟩ ∧
    decode ⟨0x01000000#32, 3, 3⟩ = .ok (.load 3 3) ∧ ¬(3 % 2 = 0 ∨ 3 ≤ 1) ∧ 3 ≤ 3 := by decide
theorem witness_ErrorsArePrecise : ∃ t, accept (word 0x04000005#32) (blank []) = .next t ∧
    t.sent.getLast? = some (.response ⟨.error .notSeeded, 0⟩) := ⟨_, rfl, rfl⟩
theorem witness_SeededBlockFailsOnlyOnLoadOrIllegal : (block 143 2).seeded = true ∧
    decode (word 0x02000000#32) = .ok .stat ∧ Command.fits 32 ⟨0x01000000#32, 143, 143⟩ ∧
    ∃ t, accept ⟨0x01000000#32, 143, 143⟩ (block 143 2) = .next t ∧
      t.sent.getLast? = some (.response ⟨.error .seedRange, 0⟩) :=
  ⟨rfl, rfl, by decide, _, rfl, rfl⟩
theorem witness_UnseededBlockOnlyLoadsAndReports :
    (blank [.command (word 0x03000000#32), .command (word 0x04000000#32)]).seeded = false ∧
    (∀ i ∈ [Instr.bit, .fill 0], i = .bit ∨ (∃ len, i = .fill len) ∨ i = .u32 ∨ i = .u64) ∧
    (blank [.command (word 0x03000000#32), .command (word 0x04000000#32)]).pending =
      [Instr.bit, .fill 0].map (fun i => HostMove.command (encode i)) := by
  refine ⟨rfl, ?_, rfl⟩
  simp
theorem witness_UnseededBlockOnlyLoadsAndReports_load : (blank []).seeded = false ∧ 3 < 2 ^ (blank []).width ∧
    3 % 2 = 1 ∧ 1 < 3 ∧ 2 < 3 := by decide

/-! ### Witnesses: registers, invariant, reset -/

theorem witness_CommandFrame : (∃ t, accept (word 0x03000000#32) (block 143 2) = .next t) ∧
    (∀ n x0, decode (word 0x03000000#32) ≠ .ok (.load n x0)) ∧
    (∃ t, accept ⟨0x01000000#32, 3, 2⟩ (block 143 2) = .next t) ∧
    decode ⟨0x01000000#32, 3, 2⟩ = .ok (.load 3 2) ∧ 3 < 2 ^ (block 143 2).width ∧ 2 < 2 ^ (block 143 2).width := by
  refine ⟨(accept_cases _ _).imp fun _ h => h.1, fun n x0 h => ?_, (accept_cases _ _).imp fun _ h => h.1, rfl,
    by decide, by decide⟩
  rw [show decode (word 0x03000000#32) = .ok .bit from rfl] at h; cases h
theorem witness_StepKeepsSound : ({ block 143 2 with pending := [.command (word 0x03000000#32)] } : State).Sound ∧
    ∃ t, step { block 143 2 with pending := [.command (word 0x03000000#32)] } = .next t :=
  ⟨by decide, (step_cases _).imp fun _ h => h.1⟩
theorem witness_ResetIsSound : ValidWidth 32 ∧ ValidWidth 2048 := by decide
theorem witness_ResetClearsSeeded : ({ block 143 2 with pending := [.reset] } : State).pending = .reset :: [] := rfl
theorem witness_OnlyResetClearsSeeded : ∃ t, step { block 143 2 with pending := [.reset] } = .next t ∧
    (block 143 2).seeded = true ∧ t.seeded = false := ⟨_, rfl, rfl, rfl⟩
theorem witness_AbandonedCommandDeliversPrefix :
    ({ block 143 2 with pending := [.resetDuring (word 0x04000004#32)] } : State).pending =
      .resetDuring (word 0x04000004#32) :: [] := rfl

/-! ### Witnesses: what the host can learn -/

theorem witness_UnseededRegistersUnobservable : (blank [.command (word 0x02000000#32), .reset]).seeded = false ∧
    ∀ m ∈ (blank [.command (word 0x02000000#32), .reset]).pending, ∀ c, m ≠ .resetDuring c := by
  refine ⟨rfl, fun m hm c => ?_⟩
  simp only [blank, List.mem_cons, List.not_mem_nil, or_false] at hm
  rcases hm with rfl | rfl <;> exact nofun
/-- One reset between commands and one that cuts a FILL, on blocks of 32 and 64 bits. -/
theorem witness_OutputIsFunctionOfCommandsSinceReset :
    (∀ c ∈ [(⟨0x01000000#32, 143, 2⟩ : Command), word 0x03000000#32],
      c.fits (block 9 3).width ∧ c.fits ({ block 3 2 with width := 64 } : State).width) ∧
    (HostMove.reset = .reset ∨ ∃ c, HostMove.reset = .resetDuring c) ∧
    (HostMove.resetDuring (word 0x04000004#32) = .reset ∨
      ∃ c, HostMove.resetDuring (word 0x04000004#32) = .resetDuring c) ∧
    ({ block 9 3 with pending := [.reset, .command ⟨0x01000000#32, 143, 2⟩, .command (word 0x03000000#32)] } :
      State).pending =
      .reset :: [(⟨0x01000000#32, 143, 2⟩ : Command), word 0x03000000#32].map HostMove.command ∧
    ({ block 3 2 with
        width := 64
        pending := [.resetDuring (word 0x04000004#32), .command ⟨0x01000000#32, 143, 2⟩,
          .command (word 0x03000000#32)] } : State).pending =
      .resetDuring (word 0x04000004#32) ::
        [(⟨0x01000000#32, 143, 2⟩ : Command), word 0x03000000#32].map HostMove.command :=
  ⟨by decide, .inl rfl, .inr ⟨_, rfl⟩, rfl, rfl⟩
theorem witness_SameLoadSameStream : 3 < 2 ^ (block 9 3).width ∧ 3 < 2 ^ ({ block 3 2 with width := 64 } : State).width ∧
    3 % 2 = 1 ∧ 1 < 3 ∧ 2 < 3 ∧
    (∀ c ∈ [word 0x03000000#32], c.fits (block 9 3).width ∧ c.fits ({ block 3 2 with width := 64 } : State).width) ∧
    ({ block 9 3 with pending := [.command ⟨0x01000000#32, 3, 2⟩, .command (word 0x03000000#32)] } : State).pending =
      .command (encode (.load 3 2)) :: [word 0x03000000#32].map HostMove.command := by decide
theorem witness_OutputsIndependentOfWidth :
    ∀ m ∈ (blank [.command ⟨0x01000000#32, 143, 2⟩, .reset, .resetDuring (word 0x04000001#32)]).pending,
      ∀ c, m = .command c ∨ m = .resetDuring c → c.fits 32 ∧ c.fits 64 := by
  intro m hm c hc
  simp only [blank, List.mem_cons, List.not_mem_nil, or_false] at hm
  rcases hm with rfl | rfl | rfl <;> simp at hc <;> subst hc <;> decide
theorem witness_OutputsIndependentOfWidth_bytes :
    (∀ m ∈ (blank [.command ⟨0x01000000#32, 143, 2⟩, .reset]).pending,
      ∀ c, m = .command c ∨ m = .resetDuring c → c.fits 32 ∧ c.fits 64) ∧
    ∀ m ∈ (blank [.command ⟨0x01000000#32, 143, 2⟩, .reset]).pending, ∀ c, m ≠ .resetDuring c := by
  refine ⟨fun m hm c hc => ?_, fun m hm c => ?_⟩ <;>
    simp only [blank, List.mem_cons, List.not_mem_nil, or_false] at hm
  · rcases hm with rfl | rfl <;> simp at hc; subst hc; decide
  · rcases hm with rfl | rfl <;> exact nofun
/-- Two blocks whose moduli and residues differ, whose first bits agree (the one advance of a BIT), and whose second
bits do not (part 2.2). -/
theorem witness_HostLearnsOnlyLowBits :
    (block 143 2).width = (block 3233 42).width ∧ (block 143 2).seeded = true ∧ (block 3233 42).seeded = true ∧
    (∀ k, k < advancesOf [word 0x03000000#32] → (block 143 2).streamBit k = (block 3233 42).streamBit k) ∧
    (block 143 2).streamBit 1 ≠ (block 3233 42).streamBit 1 ∧
    ({ block 143 2 with pending := [.command (word 0x03000000#32)] } : State).pending =
      [word 0x03000000#32].map HostMove.command := by
  refine ⟨rfl, rfl, rfl, fun k hk => ?_, by decide +kernel, rfl⟩
  rw [show advancesOf [word 0x03000000#32] = 1 from rfl] at hk
  rw [Nat.lt_one_iff.mp hk]
  rfl

/-! ### Witness: any mix of commands -/

theorem witness_AnyMixDrawsOneStream : (block 3233 42).seeded = true ∧
    (∀ i ∈ [Instr.bit, .fill 2, .stat, .u32, .u64, .byte, .tryfill 1, .nopfill], ∀ n x0, i ≠ .load n x0) ∧
    ({ block 3233 42 with
        pending := [.command (word 0x03000000#32), .command (word 0x04000002#32), .command (word 0x02000000#32),
          .command (word 0x05000000#32), .command (word 0x06000000#32), .command (word 0x04000001#32),
          .command (word 0x04000001#32), .command (word 0x04000000#32), .reset] } : State).pending =
      [Instr.bit, .fill 2, .stat, .u32, .u64, .byte, .tryfill 1, .nopfill].map
        (fun i => HostMove.command (encode i)) ++ [.reset] := by
  refine ⟨rfl, ?_, rfl⟩
  simp

end Sys2Proof.Tests
end

/-! PROOFS of 00_scope.md: what every command sends (rule R11), and that it depends on nothing but the commands
since the last reset (rule R12). -/

namespace Sys2Proof.Machine

/-! ### What the decoder can answer -/

/-- A decoder arm that demands `LEN = 0` answers its own instruction or none. -/
theorem requireZeroLen_inv {w : CmdWord} {i j : Instr} (h : requireZeroLen w i = .ok j) : j = i := by
  rw [requireZeroLen] at h
  split at h
  · cases h; rfl
  · cases h

/-- The instructions the decoder gives: the six core commands, LOAD with what is on the ports (30_encoding.md rules
R61 and R63). -/
theorem decode_inv {c : Command} {i : Instr} (h : decode c = .ok i) :
    i = .load c.opn c.opx ∨ i = .stat ∨ i = .bit ∨ i = .fill (lenField c.word) ∨ i = .u32 ∨ i = .u64 := by
  rw [decode] at h
  split at h
  · exact .inl (requireZeroLen_inv h)
  · exact .inr (.inl (requireZeroLen_inv h))
  · exact .inr (.inr (.inl (requireZeroLen_inv h)))
  · cases h; exact .inr (.inr (.inr (.inl rfl)))
  · exact .inr (.inr (.inr (.inr (.inl (requireZeroLen_inv h)))))
  · exact .inr (.inr (.inr (.inr (.inr (requireZeroLen_inv h)))))
  · cases h

/-- A command that fits the ports decodes to an instruction whose operands do. -/
theorem decode_wellFormed {c : Command} {i : Instr} {w : Nat} (hc : c.fits w) (h : decode c = .ok i) :
    i.wellFormed w = true := by
  rcases decode_inv h with rfl | rfl | rfl | rfl | rfl | rfl
  case inl => simpa [Instr.wellFormed] using hc
  all_goals rfl

theorem accept_of_decode_ok {c : Command} {i : Instr} (h : decode c = .ok i) (s : State) :
    accept c s = exec i s := by
  simp only [accept, h]

theorem accept_of_decode_error {c : Command} {e : IllegalCause} (h : decode c = .error e) (s : State) :
    accept c s = .next (raise .illegalCmd s) := by
  simp only [accept, h]

/-! ### What LOAD answers, by its operands -/

section Load

variable {s : State} {n x0 : Nat}

theorem exec_load_of_badModulus (hn : n < 2 ^ s.width) (h : badModulus n) :
    exec (.load n x0) s = .next (raise .modulusInvariant s) := by
  rw [exec_load, execLoad, portValue_of_fits hn, if_pos h]

theorem exec_load_of_badSeed (hn : n < 2 ^ s.width) (hx : x0 < 2 ^ s.width) (hm : ¬ badModulus n)
    (h : badSeed n x0) : exec (.load n x0) s = .next (raise .seedRange s) := by
  rw [exec_load, execLoad, portValue_of_fits hn, portValue_of_fits hx, if_neg hm, if_pos h]

theorem exec_load_of_good (hn : n < 2 ^ s.width) (hx : x0 < 2 ^ s.width) (hm : ¬ badModulus n)
    (h : ¬ badSeed n x0) : exec (.load n x0) s = .next (respond .ok 0 (s.loadInstance n x0)) := by
  rw [exec_load, execLoad, portValue_of_fits hn, portValue_of_fits hx, if_neg hm, if_neg h]

end Load

/-! ### What every other command answers -/

/-- How many bytes an instruction sends when it succeeds: only FILL and its spellings send any. -/
def fillLength : Instr → Nat
  | .fill len => len.toNat
  | .tryfill len => len.toNat
  | .byte => 1
  | .load _ _ | .stat | .bit | .u32 | .u64 | .nopfill => 0

/-- The value of the response of an instruction that succeeds. -/
def responseValue (i : Instr) (s : State) : RespVal :=
  match i with
  | .stat => statusWord s
  | .bit => bitValue (s.streamBit 0)
  | .u32 => BitVec.ofNat 64 (littleEndian (s.streamBytes 4))
  | .u64 => BitVec.ofNat 64 (littleEndian (s.streamBytes 8))
  | .load _ _ | .fill _ | .byte | .tryfill _ | .nopfill => 0

/-- All that an instruction other than LOAD sends when it succeeds. -/
def deliveries (i : Instr) (s : State) : List OutEvent :=
  (s.streamBytes (fillLength i)).map .byte ++ [.response ⟨.ok, responseValue i s⟩]

/-- The state after an instruction other than LOAD that succeeds. -/
def State.afterDraw (s : State) (i : Instr) : State :=
  { s with x := s.residueAt (advances i), sent := s.sent ++ deliveries i s }

theorem runFill_eq_afterDraw {i : Instr} (k : Nat) (hk : advances i = 8 * k) (hl : fillLength i = k)
    (hv : ∀ s, responseValue i s = 0) : runFill k = fun s => s.afterDraw i := by
  funext s
  rw [runFill_eq, State.afterDraw, deliveries, hk, hl, hv, List.append_assoc]

theorem runWord_eq_afterDraw {i : Instr} (k : Nat) (hk : advances i = 8 * k) (hl : fillLength i = 0)
    (hv : ∀ s, responseValue i s = BitVec.ofNat 64 (littleEndian (s.streamBytes k))) :
    runWord k = fun s => s.afterDraw i := by
  funext s
  rw [runWord_eq, State.afterDraw, deliveries, hk, hl, hv]
  rfl

/-- Every instruction but LOAD and STAT needs a seed and, with one, delivers. -/
theorem exec_eq_whenSeeded {i : Instr} (hload : ∀ n x0, i ≠ .load n x0) (hstat : i ≠ .stat) (s : State) :
    exec i s = whenSeeded s fun s => s.afterDraw i := by
  cases i with
  | load n x0 => exact absurd rfl (hload n x0)
  | stat => exact absurd rfl hstat
  | bit => rw [exec_bit]; congr 1; funext s; rw [advanceAndExtract_eq]; rfl
  | fill len => rw [exec_fill, runFill_eq_afterDraw (i := .fill len) _ rfl rfl fun _ => rfl]
  | u32 => rw [exec_u32, runWord_eq_afterDraw (i := .u32) 4 rfl rfl fun _ => rfl]
  | u64 => rw [exec_u64, runWord_eq_afterDraw (i := .u64) 8 rfl rfl fun _ => rfl]
  | byte => rw [exec_byte, runFill_eq_afterDraw (i := .byte) 1 rfl rfl fun _ => rfl]
  | tryfill len => rw [exec_tryfill, runFill_eq_afterDraw (i := .tryfill len) _ rfl rfl fun _ => rfl]
  | nopfill => rw [exec_nopfill, runFill_eq_afterDraw (i := .nopfill) 0 rfl rfl fun _ => rfl]

theorem exec_stat_eq_afterDraw (s : State) : exec .stat s = .next (s.afterDraw .stat) := rfl

/-- An instruction that needs no seed or has one delivers. -/
theorem exec_of_ready {i : Instr} {s : State} (hload : ∀ n x0, i ≠ .load n x0) (hs : i = .stat ∨ s.seeded = true) :
    exec i s = .next (s.afterDraw i) := by
  by_cases hstat : i = .stat
  · rw [hstat, exec_stat_eq_afterDraw]
  · rw [exec_eq_whenSeeded hload hstat, whenSeeded_of_seeded _ (hs.resolve_left hstat)]

/-- An instruction that needs a seed and has none raises (60_exceptions.md rule R153). -/
theorem exec_of_unseeded {i : Instr} {s : State} (hload : ∀ n x0, i ≠ .load n x0) (hstat : i ≠ .stat)
    (hs : s.seeded = false) : exec i s = .next (raise .notSeeded s) := by
  rw [exec_eq_whenSeeded hload hstat, whenSeeded_of_unseeded _ hs]

/-- What decides how an instruction runs: it is LOAD, it is ready, or it lacks the seed. -/
theorem load_or_ready_or_unseeded (i : Instr) (s : State) :
    (∃ n x0, i = .load n x0) ∨ ((∀ n x0, i ≠ .load n x0) ∧ (i = .stat ∨ s.seeded = true)) ∨
      ((∀ n x0, i ≠ .load n x0) ∧ i ≠ .stat ∧ s.seeded = false) := by
  by_cases hload : ∃ n x0, i = .load n x0
  · exact .inl hload
  have hload : ∀ n x0, i ≠ .load n x0 := fun n x0 h => hload ⟨n, x0, h⟩
  by_cases hs : i = .stat ∨ s.seeded = true
  · exact .inr (.inl ⟨hload, hs⟩)
  · obtain ⟨hstat, hs⟩ := not_or.mp hs
    exact .inr (.inr ⟨hload, hstat, Bool.eq_false_of_not_eq_true hs⟩)

/-! ### One response after all bytes (rule R11) -/

/-- The command that led from `s` to `t` sent some bytes and then one response: with an error, no byte and no other
change; otherwise `k` bytes. -/
def Ends (k : Nat) (s t : State) : Prop :=
  ∃ (bs : List Byte) (r : Response), t.sent = s.sent ++ bs.map OutEvent.byte ++ [.response r] ∧
    (∀ e, r.status = .error e → bs = [] ∧ t = raise e s) ∧ (r.status = .ok → bs.length = k)

theorem ends_raise (k : Nat) (e : CmdError) (s : State) : Ends k s (raise e s) := by
  refine ⟨[], ⟨.error e, 0⟩, by simp [raise_eq], fun e' he => ?_, nofun⟩
  cases he
  exact ⟨rfl, rfl⟩

theorem ends_loadInstance (s : State) (n x0 : Nat) : Ends 0 s (respond .ok 0 (s.loadInstance n x0)) :=
  ⟨[], ⟨.ok, 0⟩, by simp [respond_eq], nofun, fun _ => rfl⟩

theorem ends_afterDraw (s : State) (i : Instr) : Ends (fillLength i) s (s.afterDraw i) :=
  ⟨s.streamBytes (fillLength i), ⟨.ok, responseValue i s⟩, by simp [State.afterDraw, deliveries], nofun,
    fun _ => streamBytes_length s _⟩

/-- Every instruction ends so, after the bytes of its length. -/
theorem exec_ends (i : Instr) (s : State) : ∃ t, exec i s = .next t ∧ Ends (fillLength i) s t := by
  obtain ⟨n, x0, rfl⟩ | ⟨hload, hs⟩ | ⟨hload, hstat, hs⟩ := load_or_ready_or_unseeded i s
  · obtain ⟨t, ht, ⟨e, rfl⟩ | ⟨_, _, -, -, -, rfl⟩ | ⟨hload, -⟩⟩ := exec_cases (.load n x0) s
    · exact ⟨_, ht, ends_raise _ e s⟩
    · exact ⟨_, ht, ends_loadInstance s _ _⟩
    · exact absurd rfl (hload n x0)
  · exact ⟨_, exec_of_ready hload hs, ends_afterDraw s i⟩
  · exact ⟨_, exec_of_unseeded hload hstat hs, ends_raise _ _ s⟩

/-- Of what the decoder gives, only FILL has bytes to send. -/
theorem eq_fill_of_fillLength_ne_zero {c : Command} {i : Instr} (hd : decode c = .ok i) (h : fillLength i ≠ 0) :
    ∃ len, i = .fill len := by
  rcases decode_inv hd with rfl | rfl | rfl | rfl | rfl | rfl
  case inr.inr.inr.inl => exact ⟨_, rfl⟩
  all_goals exact absurd rfl h

/-- How many bytes an accepted command word sends when it succeeds; an illegal one never does. -/
def commandLength (c : Command) : Nat :=
  match decode c with
  | .ok i => fillLength i
  | .error _ => 0

theorem commandLength_of_fill {c : Command} {len : LenField} (h : decode c = .ok (.fill len)) :
    commandLength c = len.toNat := by
  simp only [commandLength, h, fillLength]

/-- A command word that has bytes to send is a FILL. -/
theorem decode_fill_of_commandLength_ne_zero {c : Command} (h : commandLength c ≠ 0) :
    ∃ len, decode c = .ok (.fill len) := by
  cases hd : decode c with
  | error e => simp [commandLength, hd] at h
  | ok i =>
    rw [commandLength, hd] at h
    obtain ⟨len, rfl⟩ := eq_fill_of_fillLength_ne_zero hd h
    exact ⟨len, rfl⟩

theorem accept_ends (c : Command) (s : State) : ∃ t, accept c s = .next t ∧ Ends (commandLength c) s t := by
  cases hd : decode c with
  | error e => exact ⟨_, accept_of_decode_error hd s, ends_raise _ _ s⟩
  | ok i =>
    rw [accept_of_decode_ok hd, commandLength, hd]
    exact exec_ends i s

theorem Status.code_eq_zero_iff (st : Status) : st.code = 0 ↔ st = .ok := by
  cases st with
  | ok => exact ⟨fun _ => rfl, fun _ => rfl⟩
  | error e => cases e <;> decide

/-- Settles O9: every accepted command ends in one of the ways of `Ends`, with the length of its word. -/
theorem oneResponseAfterAllBytes : Obligations.OneResponseAfterAllBytes := by
  intro c s
  obtain ⟨t, ht, bs, r, hsent, herr, hok⟩ := accept_ends c s
  refine ⟨t, bs, r, ht, hsent, r.status.code_eq_zero_iff, herr, fun hr len hd => ?_, fun hbs => ?_⟩
  · rw [hok hr, commandLength_of_fill hd]
  · have hr : r.status = .ok := by
      cases hst : r.status with
      | ok => rfl
      | error e => exact absurd (herr e hst).1 hbs
    exact decode_fill_of_commandLength_ne_zero (hok hr ▸ List.length_pos_iff.mpr hbs).ne'

/-! ### Two blocks that answer alike (rule R12) -/

/-- Two blocks that a host cannot tell apart from here on: both unseeded, or both seeded with the same N and X. What N
and X hold while SEEDED is 0 plays no part (10_state.md section 8). -/
structure Alike (s t : State) : Prop where
  seeded : s.seeded = t.seeded
  inst : s.seeded = true → s.n = t.n ∧ s.x = t.x

theorem Alike.of_unseeded {s t : State} (hs : s.seeded = false) (ht : t.seeded = false) : Alike s t :=
  ⟨hs.trans ht.symm, fun h => absurd (hs.symm.trans h) nofun⟩

/-- From `s` and `t` the blocks have come to `s'` and `t'`, are alike there, and have sent the same. -/
def SendAlike (s t s' t' : State) : Prop :=
  Alike s' t' ∧ ∃ out, s'.sent = s.sent ++ out ∧ t'.sent = t.sent ++ out

theorem SendAlike.refl {s t : State} (h : Alike s t) : SendAlike s t s t :=
  ⟨h, [], (List.append_nil _).symm, (List.append_nil _).symm⟩

theorem SendAlike.trans {s t u v u' v' : State} (h : SendAlike s t u v) (h' : SendAlike u v u' v') :
    SendAlike s t u' v' := by
  obtain ⟨-, out, hu, hv⟩ := h
  obtain ⟨halike, out', hu', hv'⟩ := h'
  exact ⟨halike, out ++ out', by rw [hu', hu, List.append_assoc], by rw [hv', hv, List.append_assoc]⟩

section AlikeBlocks

variable {s t : State} (h : Alike s t)
include h

theorem Alike.respond (st : Status) (v : RespVal) : SendAlike s t (respond st v s) (respond st v t) :=
  ⟨⟨h.seeded, h.inst⟩, [.response ⟨st, v⟩], rfl, rfl⟩

theorem Alike.raise (e : CmdError) : SendAlike s t (raise e s) (raise e t) := h.respond (.error e) 0

/-- A stream that starts at a seeded block is that of any block alike. -/
theorem Alike.deliveries {i : Instr} (hs : i = .stat ∨ s.seeded = true) : deliveries i s = deliveries i t := by
  rcases hs with rfl | hs
  · simp only [Machine.deliveries, fillLength, responseValue, statusWord, h.seeded, State.streamBytes,
      List.range_zero, List.map_nil]
  · obtain ⟨hn, hx⟩ := h.inst hs
    have hv : responseValue i s = responseValue i t := by
      cases i <;> simp only [responseValue, statusWord, h.seeded, streamBit_congr hn hx, streamBytes_congr hn hx]
    rw [Machine.deliveries, Machine.deliveries, streamBytes_congr hn hx, hv]

theorem Alike.afterDraw {i : Instr} (hs : i = .stat ∨ s.seeded = true) :
    SendAlike s t (s.afterDraw i) (t.afterDraw i) := by
  refine ⟨⟨h.seeded, fun hseed => ?_⟩, Machine.deliveries i s, rfl, by rw [h.deliveries hs]; rfl⟩
  obtain ⟨hn, hx⟩ := h.inst hseed
  exact ⟨hn, residueAt_congr hn hx _⟩

/-- LOAD of operands that both blocks hold: its checks see the operands alone, and a good one seeds both alike. -/
theorem Alike.exec_load {n x0 : Nat} (hns : n < 2 ^ s.width) (hnt : n < 2 ^ t.width) (hxs : x0 < 2 ^ s.width)
    (hxt : x0 < 2 ^ t.width) : ∃ s' t', exec (.load n x0) s = .next s' ∧ exec (.load n x0) t = .next t' ∧
      SendAlike s t s' t' := by
  by_cases hm : badModulus n
  · exact ⟨_, _, exec_load_of_badModulus hns hm, exec_load_of_badModulus hnt hm, h.raise _⟩
  by_cases hseed : badSeed n x0
  · exact ⟨_, _, exec_load_of_badSeed hns hxs hm hseed, exec_load_of_badSeed hnt hxt hm hseed, h.raise _⟩
  · exact ⟨_, _, exec_load_of_good hns hxs hm hseed, exec_load_of_good hnt hxt hm hseed,
      ⟨rfl, fun _ => ⟨rfl, rfl⟩⟩, [.response ⟨.ok, 0⟩], rfl, rfl⟩

/-- Every instruction whose operands both blocks hold: they send the same and stay alike. -/
theorem Alike.exec {i : Instr} (hws : i.wellFormed s.width = true) (hwt : i.wellFormed t.width = true) :
    ∃ s' t', exec i s = .next s' ∧ exec i t = .next t' ∧ SendAlike s t s' t' := by
  obtain ⟨n, x0, rfl⟩ | ⟨hload, hs⟩ | ⟨hload, hstat, hs⟩ := load_or_ready_or_unseeded i s
  · simp only [Instr.wellFormed, Bool.and_eq_true, decide_eq_true_eq] at hws hwt
    obtain ⟨hns, hxs⟩ := hws
    obtain ⟨hnt, hxt⟩ := hwt
    exact h.exec_load hns hnt hxs hxt
  · exact ⟨_, _, exec_of_ready hload hs, exec_of_ready hload (h.seeded ▸ hs), h.afterDraw hs⟩
  · exact ⟨_, _, exec_of_unseeded hload hstat hs, exec_of_unseeded hload hstat (h.seeded.symm.trans hs), h.raise _⟩

theorem Alike.accept {c : Command} (hs : c.fits s.width) (ht : c.fits t.width) :
    ∃ s' t', accept c s = .next s' ∧ accept c t = .next t' ∧ SendAlike s t s' t' := by
  cases hd : decode c with
  | error e => exact ⟨_, _, accept_of_decode_error hd s, accept_of_decode_error hd t, h.raise _⟩
  | ok i =>
    rw [accept_of_decode_ok hd, accept_of_decode_ok hd]
    exact h.exec (decode_wellFormed hs hd) (decode_wellFormed ht hd)

end AlikeBlocks

/-! ### Runs of commands -/

/-- No command writes the width of the block or the host's queue. -/
theorem accept_frame {c : Command} {s t : State} (h : accept c s = .next t) :
    t.width = s.width ∧ t.pending = s.pending := by
  obtain ⟨e, -, rfl⟩ | ⟨i, -, -, ⟨e, rfl⟩ | ⟨n, x0, -, -, -, rfl⟩ | ⟨-, -, bs, v, rfl⟩⟩ := accept_inv h
  all_goals exact ⟨rfl, rfl⟩

theorem step_of_command {s : State} {c : Command} {rest : List HostMove} (hp : s.pending = .command c :: rest) :
    step s = accept c (s.setPending rest) := by
  simp only [step, hp, takeMove]

theorem step_of_idle {s : State} (hp : s.pending = []) : step s = .next s := by
  simp only [step, hp]

/-- Two runs that began at `s₀` and `t₀`: the blocks have sent the same since and are alike, and before both stand the
same commands, which both can hold. -/
structure InStep (s₀ t₀ s t : State) : Prop where
  sent : SendAlike s₀ t₀ s t
  queue : ∃ cs : List Command, s.pending = cs.map HostMove.command ∧ t.pending = cs.map HostMove.command ∧
    ∀ c ∈ cs, c.fits s.width ∧ c.fits t.width

/-- The invariant of the two runs: a step of each keeps them in step. -/
theorem InStep.step {s₀ t₀ s t : State} (h : InStep s₀ t₀ s t) :
    ∃ s' t', step s = .next s' ∧ step t = .next t' ∧ InStep s₀ t₀ s' t' := by
  obtain ⟨cs, hps, hpt, hfit⟩ := h.queue
  cases cs with
  | nil => exact ⟨s, t, step_of_idle hps, step_of_idle hpt, h⟩
  | cons c cs =>
    obtain ⟨hcs, hct⟩ := hfit c List.mem_cons_self
    have halike : Alike (s.setPending (cs.map .command)) (t.setPending (cs.map .command)) :=
      ⟨h.sent.1.seeded, h.sent.1.inst⟩
    obtain ⟨s', t', hs, ht, hsend⟩ := halike.accept hcs hct
    obtain ⟨hws, hqs⟩ := accept_frame hs
    obtain ⟨hwt, hqt⟩ := accept_frame ht
    refine ⟨s', t', (step_of_command hps).trans hs, (step_of_command hpt).trans ht, h.sent.trans hsend, cs, hqs, hqt,
      fun d hd => ?_⟩
    rw [hws, hwt]
    exact hfit d (List.mem_cons_of_mem c hd)

/-- Blocks that are alike send the same for the same commands. -/
theorem Alike.runSteps {s t : State} (h : Alike s t) {cs : List Command} (hps : s.pending = cs.map HostMove.command)
    (hpt : t.pending = cs.map HostMove.command) (hfit : ∀ c ∈ cs, c.fits s.width ∧ c.fits t.width) (k : Nat) :
    ∃ s' t', runSteps k s = .next s' ∧ runSteps k t = .next t' ∧ SendAlike s t s' t' := by
  obtain ⟨s', t', hs, ht, hin⟩ := runSteps_related (R := InStep s t) (fun _ _ hR => hR.step) k
    ⟨.refl h, cs, hps, hpt, hfit⟩
  exact ⟨s', t', hs, ht, hin.sent⟩

/-! ### The reset both runs begin with -/

/-- A reset of either kind leaves an unseeded block of the same width with the rest of its queue; one between commands
sends nothing (70_reset_and_hazards.md rules R180 and R181). -/
theorem step_of_reset {s : State} {m : HostMove} {rest : List HostMove} (hm : m = .reset ∨ ∃ c, m = .resetDuring c)
    (hp : s.pending = m :: rest) : ∃ s1, step s = .next s1 ∧ s1.seeded = false ∧ s1.width = s.width ∧
      s1.pending = rest ∧ (m = .reset → s1.sent = s.sent) := by
  obtain rfl | ⟨c, rfl⟩ := hm
  · exact ⟨resetBlock (s.setPending rest), by simp only [step, hp, takeMove], rfl, rfl, rfl, fun _ => rfl⟩
  · obtain ⟨t, -, habandon⟩ := abandon_cases c (s.setPending rest)
    refine ⟨resetBlock (abandon c (s.setPending rest)), by simp only [step, hp, takeMove], rfl, ?_, ?_, nofun⟩
    · rw [resetBlock_width, habandon]; rfl
    · rw [resetBlock_pending, habandon]; rfl

/-- Settles O43: after their resets both blocks are unseeded, hence alike, and the commands keep them alike. -/
theorem outputIsFunctionOfCommandsSinceReset : Obligations.OutputIsFunctionOfCommandsSinceReset := by
  intro s t m m' cs hfit hm hm' hps hpt
  obtain ⟨s1, hs1, hseeds, hws, hqs, hsents⟩ := step_of_reset hm hps
  obtain ⟨t1, ht1, hseedt, hwt, hqt, hsentt⟩ := step_of_reset hm' hpt
  have hfit1 : ∀ c ∈ cs, c.fits s1.width ∧ c.fits t1.width := by rwa [hws, hwt]
  obtain ⟨s', t', hs', ht', -, out, hos, hot⟩ := (Alike.of_unseeded hseeds hseedt).runSteps hqs hqt hfit1 cs.length
  exact ⟨s1, t1, s', t', out, hs1, ht1, hs', ht', hos, hot, hsents, hsentt⟩

end Sys2Proof.Machine

/-! PROOFS of 30_encoding.md: which command words are illegal, and what an illegal one does (rule R68). -/

namespace Sys2Proof.Machine

/-- A decoder arm that demands `LEN = 0` rejects every other `LEN`, and nothing else (30_encoding.md rule R62). -/
theorem requireZeroLen_error_iff (w : CmdWord) (i : Instr) :
    (∃ e, requireZeroLen w i = .error e) ↔ lenField w ≠ 0 := by
  rw [requireZeroLen]
  split
  case isTrue hlen => exact iff_of_false nofun (not_not.mpr hlen)
  case isFalse hlen => exact iff_of_true ⟨_, rfl⟩ hlen

/-- The opcodes whose `LEN` must be zero are illegal by case (b) of rule R68 alone. -/
theorem illegal_iff_of_requireZeroLen {op : Nat} {w : CmdWord} (i : Instr)
    (hop : op ∈ [0x01, 0x02, 0x03, 0x05, 0x06]) :
    (∃ e, requireZeroLen w i = .error e) ↔
      (op = 0x00 ∨ 0x07 ≤ op) ∨ (op ∈ [0x01, 0x02, 0x03, 0x05, 0x06] ∧ lenField w ≠ 0) := by
  have hreserved : ¬ (op = 0x00 ∨ 0x07 ≤ op) := by
    simp only [List.mem_cons, List.not_mem_nil, or_false] at hop
    omega
  rw [requireZeroLen_error_iff, or_iff_right hreserved, and_iff_right hop]

/-- The words the decoder rejects, by the arms of the opcode map (30_encoding.md rules R61 and R68). -/
theorem decode_error_iff (c : Command) : (∃ e, decode c = .error e) ↔
    ((opField c.word).toNat = 0x00 ∨ 0x07 ≤ (opField c.word).toNat) ∨
      ((opField c.word).toNat ∈ [0x01, 0x02, 0x03, 0x05, 0x06] ∧ lenField c.word ≠ 0) := by
  rw [decode]
  generalize (opField c.word).toNat = op
  split
  case h_4 => exact iff_of_false nofun (by simp)
  case h_7 =>
    simp only [imp_false] at *
    exact iff_of_true ⟨_, rfl⟩ (.inl (by omega))
  all_goals exact illegal_iff_of_requireZeroLen _ (by decide)

/-- Settles O3: the decoder's arms say which words it rejects, and accepting one of those raises. -/
theorem illegalWordsRaise : Obligations.IllegalWordsRaise := by
  refine ⟨decode_error_iff, fun c s ⟨e, hd⟩ => ?_, rfl, fun opn opx => ?_⟩
  · rw [accept_of_decode_error hd, raise_eq]
  · have hzero : (opField 0x00000000#32).toNat = 0x00 := by decide
    exact (decode_error_iff _).mpr (.inl (.inl hzero))

end Sys2Proof.Machine

/-! PROOFS of 40_construction.md: the checks of LOAD and the instance it begins (rules R81 and R83), and STAT
(rule R84). -/

namespace Sys2Proof.Machine

/-! ### LOAD -/

/-- The modulus check of rule R81 in the words of the spec: even, 0 included, or 1. -/
theorem badModulus_iff (n : Nat) : badModulus n ↔ n % 2 = 0 ∨ n = 1 := by omega

theorem not_badModulus_iff (n : Nat) : ¬ badModulus n ↔ n % 2 = 1 ∧ 1 < n := by omega

/-- A modulus that is odd and above 1, with a seed below it, passes both checks. The seed needs no bound of its own:
it fits the port because the modulus does. -/
theorem exec_load_of_odd {s : State} {n x0 : Nat} (hn : n < 2 ^ s.width) (hodd : n % 2 = 1) (hone : 1 < n)
    (hlt : x0 < n) : exec (.load n x0) s = .next { s with
      n := n, x := x0, seeded := true, sent := s.sent ++ [.response ⟨.ok, 0⟩] } := by
  have hm : ¬ badModulus n := (not_badModulus_iff n).mpr ⟨hodd, hone⟩
  rw [exec_load_of_good hn (hlt.trans hn) hm (Nat.not_le.mpr hlt), respond_eq, State.loadInstance]

/-- Settles O11: both checks pass, and LOAD makes no other. -/
theorem loadStartsInstance : Obligations.LoadStartsInstance :=
  fun _ _ _ hn hodd hone hlt => exec_load_of_odd hn hodd hone hlt

/-- Settles O12: one clause for each way through the two checks, the modulus check first. -/
theorem loadChecksInOrder : Obligations.LoadChecksInOrder := by
  intro s n x0 hn hx
  refine ⟨fun hbad => ?modulus, fun hodd hne hge => ?seed, fun hodd hne hlt => ?good⟩
  case modulus => rw [exec_load_of_badModulus hn ((badModulus_iff n).mpr hbad), raise_eq]
  case seed =>
    have hm : ¬ badModulus n := (not_badModulus_iff n).mpr ⟨hodd, by omega⟩
    rw [exec_load_of_badSeed hn hx hm hge, raise_eq]
  case good => exact exec_load_of_odd hn hodd (by omega) hlt

/-! ### STAT -/

/-- A zero-extended bit: the bit in position 0, zeros above (30_encoding.md rule R65). -/
theorem bitValue_getLsbD (b : Bool) (k : Nat) : (bitValue b).getLsbD k = (decide (k = 0) && b) := by
  cases b with
  | false => simp [bitValue]
  | true => simp [bitValue, BitVec.getLsbD_one]

/-- A command whose `LEN` must be zero is illegal with any other `LEN`, in every state (30_encoding.md rules R62 and
R68). -/
theorem accept_of_nonzeroLen {op : OpField} {len : LenField} (hop : op.toNat ∈ [0x01, 0x02, 0x03, 0x05, 0x06])
    (hlen : len ≠ 0) (opn opx : Nat) (s : State) :
    accept ⟨commandWord op len, opn, opx⟩ s = .next (raise .illegalCmd s) := by
  have hillegal : ∃ e, decode ⟨commandWord op len, opn, opx⟩ = .error e := by
    rw [decode_error_iff, opField_commandWord, lenField_commandWord]
    exact .inr ⟨hop, hlen⟩
  obtain ⟨e, hd⟩ := hillegal
  exact accept_of_decode_error hd s

/-- The word of STAT, by its fields; the ports play no part (30_encoding.md rules R61 and R63). -/
theorem decode_of_stat {w : CmdWord} (hop : opField w = 0x02) (hlen : lenField w = 0) (opn opx : Nat) :
    decode ⟨w, opn, opx⟩ = .ok .stat := by
  simp [decode, hop, requireZeroLen, hlen]

/-- Settles O14: STAT is illegal only by its `LEN`; its value is SEEDED zero-extended. -/
theorem statReturnsSeeded : Obligations.StatReturnsSeeded := by
  refine ⟨decode_of_stat (by decide) (by decide), fun len opn opx s hlen => ?illegal,
    fun s => ⟨statusWord s, ?result, ?low, fun k hk => ?high⟩⟩
  case illegal => rw [accept_of_nonzeroLen (by decide) hlen, raise_eq]
  case result => rw [exec_stat, respond_eq]
  case low => rw [statusWord, bitValue_getLsbD, decide_eq_true rfl, Bool.true_and]
  case high => rw [statusWord, bitValue_getLsbD, decide_eq_false (Nat.ne_of_gt hk), Bool.false_and]

end Sys2Proof.Machine

/-! PROOFS of 41_bitgenerator.md: what BIT does (rule R101), and the bits a run of BITs gives after LOAD (rule R102). -/

namespace Sys2Proof.Machine

/-! ### The bits of the stream as responses -/

/-- One advance in the words of the spec (00_scope.md rules R7 and R10). -/
theorem residueAt_succ_eq_pow (s : State) (k : Nat) : s.residueAt (k + 1) = s.residueAt k ^ 65537 % s.n := by
  rw [residueAt_succ, modExp, Config.E]

/-- A bit of the stream, zero-extended, is its residue modulo 2 (30_encoding.md rule R65). -/
theorem bitValue_streamBit (s : State) (k : Nat) :
    bitValue (s.streamBit k) = BitVec.ofNat 64 (s.residueAt k % 2) := by
  rw [State.streamBit]
  obtain h | h := Nat.mod_two_eq_zero_or_one (s.residueAt k)
  · rw [h]; rfl
  · rw [h]; rfl

/-- The response to the BIT that draws bit `k` of the stream from `s`. -/
def bitResponse (s : State) (k : Nat) : OutEvent := .response ⟨.ok, BitVec.ofNat 64 (s.residueAt k % 2)⟩

/-- The responses read nothing but N and X. -/
theorem bitResponse_congr {s t : State} (hn : s.n = t.n) (hx : s.x = t.x) : bitResponse s = bitResponse t := by
  funext k
  rw [bitResponse, bitResponse, residueAt_congr hn hx]

/-- From the `a`-th residue on, the responses are those from bit `a` on. -/
theorem bitResponse_of_x {s t : State} {a : Nat} (hn : t.n = s.n) (hx : t.x = s.residueAt a) :
    bitResponse t = fun k => bitResponse s (a + k) := by
  funext k
  rw [bitResponse, bitResponse, residueAt_of_x hn hx]

/-- What `k` BITs make of a seeded block. -/
def State.afterBits (s : State) (k : Nat) : State :=
  { s with x := s.residueAt k, sent := s.sent ++ (List.range k).map (bitResponse s) }

@[simp] theorem afterBits_n (s : State) (k : Nat) : (s.afterBits k).n = s.n := rfl
@[simp] theorem afterBits_x (s : State) (k : Nat) : (s.afterBits k).x = s.residueAt k := rfl
@[simp] theorem afterBits_seeded (s : State) (k : Nat) : (s.afterBits k).seeded = s.seeded := rfl

theorem afterBits_zero (s : State) : s.afterBits 0 = s := by
  rw [State.afterBits, residueAt_zero, List.range_zero, List.map_nil, List.append_nil]

/-- BITs drawn in two parts. -/
theorem afterBits_afterBits (s : State) (a b : Nat) : (s.afterBits a).afterBits b = s.afterBits (a + b) := by
  have hx : (s.afterBits a).residueAt b = s.residueAt (a + b) := residueAt_of_x (afterBits_n s a) (afterBits_x s a) b
  have hbits : bitResponse (s.afterBits a) = fun k => bitResponse s (a + k) :=
    bitResponse_of_x (afterBits_n s a) (afterBits_x s a)
  have hsent : (s.afterBits a).sent ++ (List.range b).map (bitResponse (s.afterBits a)) =
      s.sent ++ (List.range (a + b)).map (bitResponse s) := by
    rw [hbits, List.range_add, List.map_append, List.map_map, ← List.append_assoc]
    rfl
  rw [State.afterBits, hx, hsent, State.afterBits, State.afterBits]

/-- The queue plays no part in what BITs draw. -/
theorem afterBits_setPending (s : State) (l : List HostMove) (k : Nat) :
    (s.setPending l).afterBits k = (s.afterBits k).setPending l := by
  have hx : (s.setPending l).residueAt k = s.residueAt k := residueAt_congr (setPending_n s l) (setPending_x s l) k
  have hbits : bitResponse (s.setPending l) = bitResponse s :=
    bitResponse_congr (setPending_n s l) (setPending_x s l)
  rw [State.afterBits, hx, hbits, State.afterBits, State.setPending, State.setPending]

/-- The last queue set is the queue. -/
theorem setPending_setPending (s : State) (l m : List HostMove) :
    (s.setPending l).setPending m = s.setPending m := rfl

/-! ### One BIT -/

/-- The word of BIT, by its fields; the ports play no part (30_encoding.md rules R61 and R63). -/
theorem decode_of_bit {w : CmdWord} (hop : opField w = 0x03) (hlen : lenField w = 0) (opn opx : Nat) :
    decode ⟨w, opn, opx⟩ = .ok .bit := by
  simp [decode, hop, requireZeroLen, hlen]

theorem deliveries_bit (s : State) : deliveries .bit s = [bitResponse s 0] := by
  rw [deliveries, responseValue, bitValue_streamBit, fillLength, State.streamBytes, List.range_zero, bitResponse]
  rfl

theorem exec_bit_of_seeded {s : State} (hs : s.seeded = true) : exec .bit s = .next (s.afterBits 1) := by
  rw [exec_of_ready (i := .bit) nofun (.inr hs), State.afterDraw, deliveries_bit, advances, State.afterBits,
    List.range_one, List.map_singleton]

/-- Settles O17: BIT is illegal only by its `LEN`, needs the seed, and then draws one bit. -/
theorem bitResult : Obligations.BitResult := by
  refine ⟨decode_of_bit (by decide) (by decide), fun len opn opx s hlen => ?illegal, fun s hs => ?unseeded,
    fun s hs => ?seeded⟩
  case illegal => rw [accept_of_nonzeroLen (by decide) hlen, raise_eq]
  case unseeded => rw [exec_bit, whenSeeded_of_unseeded _ hs, raise_eq]
  case seeded =>
    rw [exec_bit_of_seeded hs, State.afterBits, residueAt_succ_eq_pow, residueAt_zero]
    rfl

/-! ### A run of BITs -/

/-- A step that takes a legal command runs what the command decodes to. -/
theorem step_of_decode_ok {s : State} {c : Command} {i : Instr} {rest : List HostMove}
    (hp : s.pending = .command c :: rest) (hd : decode c = .ok i) : step s = exec i (s.setPending rest) := by
  rw [step_of_command hp, accept_of_decode_ok hd]

theorem decode_encode_bit : decode (encode .bit) = .ok .bit := decode_of_bit (by decide) (by decide) 0 0

theorem decode_encode_load (n x0 : Nat) : decode (encode (.load n x0)) = .ok (.load n x0) := by
  simp [decode, encode, encodeWord, requireZeroLen]

/-- A LOAD at the head of the queue whose operands pass both checks. -/
theorem step_of_load {s : State} {n x0 : Nat} {rest : List HostMove} (hn : n < 2 ^ s.width) (hodd : n % 2 = 1)
    (hone : 1 < n) (hlt : x0 < n) (hp : s.pending = .command (encode (.load n x0)) :: rest) :
    step s = .next ((respond .ok 0 (s.loadInstance n x0)).setPending rest) := by
  rw [step_of_decode_ok hp (decode_encode_load n x0), exec_load_of_odd (s := s.setPending rest) hn hodd hone hlt]
  rfl

/-- A BIT at the head of the queue of a seeded block. -/
theorem step_of_bit {s : State} (hs : s.seeded = true) (rest : List HostMove) :
    step (s.setPending (.command (encode .bit) :: rest)) = .next ((s.afterBits 1).setPending rest) := by
  rw [step_of_decode_ok (setPending_pending s _) decode_encode_bit, setPending_setPending,
    exec_bit_of_seeded (s := s.setPending rest) hs, afterBits_setPending]

/-- A seeded block that has `k` BITs and nothing else to take answers each with the next bit of its stream. -/
theorem runSteps_bits (k : Nat) {s : State} (hs : s.seeded = true) :
    runSteps k (s.setPending (List.replicate k (.command (encode .bit)))) =
      .next ((s.afterBits k).setPending []) := by
  induction k generalizing s with
  | zero => rw [List.replicate_zero, runSteps_zero, afterBits_zero]
  | succ k ih =>
    have hs1 : (s.afterBits 1).seeded = true := (afterBits_seeded s 1).trans hs
    rw [List.replicate_succ, runSteps_succ (step_of_bit hs _), ih hs1, afterBits_afterBits, Nat.add_comm 1 k]

/-- Settles O18: LOAD seeds the block with the residue x0, and the BITs draw the stream from there. -/
theorem bitsAfterLoad : Obligations.BitsAfterLoad := by
  intro s n x0 k hn hodd hone hlt hp
  refine ⟨(respond .ok 0 (s.loadInstance n x0)).residueAt, residueAt_zero _, residueAt_succ_eq_pow _, ?_⟩
  rw [runSteps_succ (step_of_load hn hodd hone hlt hp), runSteps_bits k (s := respond .ok 0 _) rfl]
  rfl

end Sys2Proof.Machine

/-! PROOFS of 42_facade.md: the byte packer (rule R120), FILL and its spellings (rules R121, R122, R126 and R127), the
word commands (rules R123 to R125), how they compose (rules R128 and R129), and that LOAD decides all that follows
(rule R130). -/

namespace Sys2Proof.Machine

/-! ### The stream from a later residue -/

/-- As `streamBit_setX`, for any state that agrees in N and X. -/
theorem streamBit_of_x {s t : State} {a : Nat} (hn : t.n = s.n) (hx : t.x = s.residueAt a) (k : Nat) :
    t.streamBit k = s.streamBit (a + k) := by
  rw [streamBit_congr (t := s.setX (s.residueAt a)) hn hx, streamBit_setX]

/-- As `streamBytes_add`, for any state that agrees in N and X. -/
theorem streamBytes_of_x {s t : State} {a : Nat} (hn : t.n = s.n) (hx : t.x = s.residueAt (8 * a)) (b : Nat) :
    s.streamBytes a ++ t.streamBytes b = s.streamBytes (a + b) := by
  rw [streamBytes_add, streamBytes_congr (t := s.setX (s.residueAt (8 * a))) hn hx]

theorem streamBytes_one (s : State) : s.streamBytes 1 = [s.streamByte 0] := rfl

theorem streamBytes_four (s : State) :
    s.streamBytes 4 = [s.streamByte 0, s.streamByte 1, s.streamByte 2, s.streamByte 3] := rfl

/-- Bit `7 - j` of byte `i` among the first `k` bytes. -/
theorem streamBytes_getD_getLsbD (s : State) {k i j : Nat} (hi : i < k) (hj : j < 8) :
    ((s.streamBytes k).getD i 0).getLsbD (7 - j) = s.streamBit (8 * i + j) := by
  rw [streamBytes_getD s hi, streamByte_getLsbD s i j hj]

/-! ### The byte packer -/

/-- Eight bits, the first worth 128, as a sum. -/
theorem sum_eight_bits (f : Nat → Bool) : ((List.range 8).map fun j => bitNat (f j) * 2 ^ (7 - j)).sum =
    bitNat (f 0) * 128 + bitNat (f 1) * 64 + bitNat (f 2) * 32 + bitNat (f 3) * 16 + bitNat (f 4) * 8 +
      bitNat (f 5) * 4 + bitNat (f 6) * 2 + bitNat (f 7) := by
  simp only [List.range_succ, List.range_zero, List.nil_append, List.cons_append, List.map_cons, List.map_nil,
    List.sum_cons, List.sum_nil]
  omega

/-- A byte of the stream is the sum of its bits, bit `j` worth `2 ^ (7 - j)` (42_facade.md rule R120). -/
theorem streamByte_toNat_eq_sum (s : State) (i : Nat) : (s.streamByte i).toNat =
    ((List.range 8).map fun j => bitNat (s.streamBit (8 * i + j)) * 2 ^ (7 - j)).sum := by
  rw [streamByte_toNat, sum_eight_bits fun j => s.streamBit (8 * i + j)]
  simp only [Nat.add_zero]

/-- Settles O23: the packer answers byte 0 of the stream. -/
theorem packerPutsFirstBitHighest : Obligations.PackerPutsFirstBitHighest := by
  intro s
  refine ⟨s.streamByte 0, packByte_eq s, fun j hj => ?bits, ?value⟩
  case bits => rw [streamByte_getLsbD s 0 j hj, Nat.mul_zero, Nat.zero_add]
  case value => simp only [streamByte_toNat_eq_sum, Nat.mul_zero, Nat.zero_add]

/-! ### What FILL leaves in each field -/

section RunFill

variable (k : Nat) (s : State)

@[simp] theorem runFill_n : (runFill k s).n = s.n := by rw [runFill_eq]
@[simp] theorem runFill_x : (runFill k s).x = s.residueAt (8 * k) := by rw [runFill_eq]
@[simp] theorem runFill_seeded : (runFill k s).seeded = s.seeded := by rw [runFill_eq]
@[simp] theorem runFill_sent :
    (runFill k s).sent = s.sent ++ (s.streamBytes k).map .byte ++ [.response ⟨.ok, 0⟩] := by rw [runFill_eq]

end RunFill

/-- FILL of no bytes leaves only its response (42_facade.md rule R122). -/
theorem runFill_zero (s : State) : runFill 0 s = respond .ok 0 s := rfl

theorem exec_fill_of_seeded {s : State} {len : LenField} {k : Nat} (hs : s.seeded = true) (hk : len.toNat = k) :
    exec (.fill len) s = .next (runFill k s) := by
  rw [exec_fill, whenSeeded_of_seeded _ hs, hk]

theorem exec_fill_of_unseeded {s : State} (len : LenField) (hs : s.seeded = false) :
    exec (.fill len) s = .next { s with sent := s.sent ++ [.response ⟨.error .notSeeded, 0⟩] } := by
  rw [exec_fill, whenSeeded_of_unseeded _ hs, raise_eq]

/-- Settles O25: the loop of FILL makes no turn. -/
theorem emptyFill : Obligations.EmptyFill := by
  refine ⟨fun s hs => ?seeded, fun s hs => exec_fill_of_unseeded 0 hs⟩
  case seeded => rw [exec_fill_of_seeded hs (k := 0) rfl, runFill_zero, respond_eq]

/-! ### The spellings of FILL -/

/-- An instruction runs as the core command it expands to (30_encoding.md rule R72). -/
theorem exec_expand (i : Instr) (s : State) : exec i.expand s = exec i s := by
  cases i with
  | byte => rw [exec_byte]; exact exec_fill s 1
  | tryfill len => rw [exec_tryfill]; exact exec_fill s len
  | nopfill => rw [exec_nopfill]; exact exec_fill s 0
  | load | stat | bit | fill | u32 | u64 => rfl

/-- The four spellings of a FILL of `len` bytes. -/
theorem expand_eq_fill {i : Instr} {len : LenField}
    (h : i = .fill len ∨ i = .tryfill len ∨ (i = .byte ∧ len = 1) ∨ (i = .nopfill ∧ len = 0)) :
    i.expand = .fill len := by
  rcases h with rfl | rfl | ⟨rfl, rfl⟩ | ⟨rfl, rfl⟩
  all_goals rfl

/-- Settles O5: each spelling has the word of its expansion and runs as it; TRYFILL then ends as FILL does. -/
theorem pseudoCommandsAreFills : Obligations.PseudoCommandsAreFills := by
  refine ⟨⟨by decide, rfl, fun s => (exec_expand .byte s).symm⟩,
    fun len => ⟨rfl, fun s => (exec_expand (.tryfill len) s).symm⟩,
    ⟨by decide, rfl, fun s => (exec_expand .nopfill s).symm⟩, fun len s hs => ?seeded, fun len s hs => ?unseeded⟩
  case seeded =>
    refine ⟨runFill len.toNat s, ?_, ?_⟩
    · rw [← exec_expand, Instr.expand, exec_fill_of_seeded hs rfl]
    · rw [runFill_sent, List.getLast?_concat]
  case unseeded => rw [← exec_expand, Instr.expand, exec_fill_of_unseeded len hs]

/-! ### FILL -/

/-- The word of FILL by its fields; every `LEN` is legal (30_encoding.md rules R61 and R62). -/
theorem decode_of_fill {w : CmdWord} (hop : opField w = 0x04) (opn opx : Nat) :
    decode ⟨w, opn, opx⟩ = .ok (.fill (lenField w)) := by
  simp [decode, hop]

/-- The words 0x04000000 + len are the opcode and the length side by side (30_encoding.md rule R60). -/
theorem fillWord_eq (len : LenField) : 0x04000000#32 + len.setWidth 32 = commandWord 0x04 len := by
  apply BitVec.eq_of_toNat_eq
  have hlen := len.isLt
  have hop : (0x04 : OpField).toNat = 4 := rfl
  rw [commandWord, BitVec.toNat_append, ← Nat.shiftLeft_add_eq_or_of_lt hlen, Nat.shiftLeft_eq, BitVec.toNat_add,
    BitVec.toNat_setWidth, BitVec.toNat_ofNat, hop]
  omega

/-- Settles O24: every spelling runs the loop of FILL, which sends the first bytes of the stream. -/
theorem fillResult : Obligations.FillResult := by
  refine ⟨fun len opn opx => ?word, fun s i len hi => ?_⟩
  case word =>
    rw [fillWord_eq, decode_of_fill (opField_commandWord _ _), lenField_commandWord]
  rw [← exec_expand i s, expand_eq_fill hi]
  refine ⟨exec_fill_of_unseeded len, fun hs => ⟨s.streamBytes len.toNat, streamBytes_length s _, fun k j hk hj => ?bits,
    ?result⟩⟩
  case bits => exact streamBytes_getD_getLsbD s hk hj
  case result => rw [exec_fill_of_seeded hs rfl, runFill_eq]

/-! ### The word of the next bytes -/

/-- The value of U32 and U64: the little-endian word of the first `k` bytes of the stream (42_facade.md rule R125). -/
def State.streamWord (s : State) (k : Nat) : RespVal := BitVec.ofNat 64 (littleEndian (s.streamBytes k))

theorem littleEndian_streamBytes_lt (s : State) (k : Nat) : littleEndian (s.streamBytes k) < 2 ^ (8 * k) := by
  have h := littleEndian_lt (s.streamBytes k)
  rwa [streamBytes_length] at h

/-- No byte is cut off: 8 bytes fit the value of a response. -/
theorem streamWord_toNat (s : State) {k : Nat} (hk : k ≤ 8) :
    (s.streamWord k).toNat = littleEndian (s.streamBytes k) := by
  have hfits : 2 ^ (8 * k) ≤ 2 ^ 64 := Nat.pow_le_pow_right (by decide) (by omega)
  rw [State.streamWord, BitVec.toNat_ofNat, Nat.mod_eq_of_lt ((littleEndian_streamBytes_lt s k).trans_le hfits)]

/-- Bit `8 i + 7 - j` of the word is bit `7 - j` of byte `i`, hence bit `8 i + j` of the stream. -/
theorem streamWord_getLsbD (s : State) {k i j : Nat} (hk : k ≤ 8) (hi : i < k) (hj : j < 8) :
    (s.streamWord k).getLsbD (8 * i + 7 - j) = s.streamBit (8 * i + j) := by
  rw [show 8 * i + 7 - j = 8 * i + (7 - j) by omega, BitVec.getLsbD, streamWord_toNat s hk,
    littleEndian_testBit _ _ _ (by omega), ← List.getD_eq_getElem?_getD, streamBytes_getD_getLsbD s hi hj]

/-- Above its bytes the word is zero. -/
theorem streamWord_getLsbD_of_le (s : State) {k m : Nat} (hk : k ≤ 8) (hm : 8 * k ≤ m) :
    (s.streamWord k).getLsbD m = false := by
  have hlt : 2 ^ (8 * k) ≤ 2 ^ m := Nat.pow_le_pow_right (by decide) hm
  rw [BitVec.getLsbD, streamWord_toNat s hk,
    Nat.testBit_eq_false_of_lt ((littleEndian_streamBytes_lt s k).trans_le hlt)]

/-- The word is the sum of its bytes, byte `i` worth `2 ^ (8 i)` (42_facade.md rule R125). -/
theorem streamWord_toNat_eq_sum (s : State) {k : Nat} (hk : k ≤ 8) : (s.streamWord k).toNat =
    ((List.range k).map fun i => ((s.streamBytes k).getD i 0).toNat * 2 ^ (8 * i)).sum := by
  rw [streamWord_toNat s hk, littleEndian_eq_sum, streamBytes_length]

/-- The low `8 a` bits of a longer word are the shorter word: its bytes are drawn first. -/
theorem streamWord_toNat_mod (s : State) {a b : Nat} (h : a + b ≤ 8) :
    (s.streamWord (a + b)).toNat % 2 ^ (8 * a) = (s.streamWord a).toNat := by
  rw [streamWord_toNat s h, streamWord_toNat s (by omega), streamBytes_add, littleEndian_append, streamBytes_length,
    Nat.add_mul_mod_self_left, Nat.mod_eq_of_lt (littleEndian_streamBytes_lt s a)]

@[simp] theorem runWord_x (k : Nat) (s : State) : (runWord k s).x = s.residueAt (8 * k) := by rw [runWord_eq]

@[simp] theorem runWord_sent (k : Nat) (s : State) :
    (runWord k s).sent = s.sent ++ [.response ⟨.ok, s.streamWord k⟩] := by rw [runWord_eq, State.streamWord]

/-! ### U32 and U64 -/

/-- The word of U32, by its fields; the ports play no part (30_encoding.md rules R61 and R63). -/
theorem decode_of_u32 {w : CmdWord} (hop : opField w = 0x05) (hlen : lenField w = 0) (opn opx : Nat) :
    decode ⟨w, opn, opx⟩ = .ok .u32 := by
  simp [decode, hop, requireZeroLen, hlen]

/-- The word of U64, by its fields; the ports play no part (30_encoding.md rules R61 and R63). -/
theorem decode_of_u64 {w : CmdWord} (hop : opField w = 0x06) (hlen : lenField w = 0) (opn opx : Nat) :
    decode ⟨w, opn, opx⟩ = .ok .u64 := by
  simp [decode, hop, requireZeroLen, hlen]

theorem exec_u32_of_seeded {s : State} (hs : s.seeded = true) : exec .u32 s = .next (runWord 4 s) := by
  rw [exec_u32, whenSeeded_of_seeded _ hs]

theorem exec_u64_of_seeded {s : State} (hs : s.seeded = true) : exec .u64 s = .next (runWord 8 s) := by
  rw [exec_u64, whenSeeded_of_seeded _ hs]

/-- Settles O26: U32 is illegal only by its `LEN`, needs the seed, and then answers the word of four bytes. -/
theorem u32Result : Obligations.U32Result := by
  refine ⟨decode_of_u32 (by decide) (by decide), fun len opn opx s hlen => ?illegal, fun s hs => ?unseeded,
    fun s hs => ⟨s.streamWord 4, ?result, fun i j hi hj => ?low, fun m hm => ?high⟩⟩
  case illegal => rw [accept_of_nonzeroLen (by decide) hlen, raise_eq]
  case unseeded => rw [exec_u32, whenSeeded_of_unseeded _ hs, raise_eq]
  case result => rw [exec_u32_of_seeded hs, runWord_eq, State.streamWord]
  case low => exact streamWord_getLsbD s (by decide) hi hj
  case high => exact streamWord_getLsbD_of_le s (by decide) hm

/-- Settles O27: U64 is illegal only by its `LEN`, needs the seed, and then answers the word of eight bytes. -/
theorem u64Result : Obligations.U64Result := by
  refine ⟨decode_of_u64 (by decide) (by decide), fun len opn opx s hlen => ?illegal, fun s hs => ?unseeded,
    fun s hs => ⟨s.streamWord 8, ?result, fun i j hi hj => ?bits⟩⟩
  case illegal => rw [accept_of_nonzeroLen (by decide) hlen, raise_eq]
  case unseeded => rw [exec_u64, whenSeeded_of_unseeded _ hs, raise_eq]
  case result => rw [exec_u64_of_seeded hs, runWord_eq, State.streamWord]
  case bits => exact streamWord_getLsbD s (by decide) hi hj

/-- Settles O29: FILL and the word commands draw the same bytes of the stream. -/
theorem wordsAreFillsLittleEndian : Obligations.WordsAreFillsLittleEndian := by
  intro s hs
  exact ⟨runFill 4 s, runFill 8 s, runWord 4 s, runWord 8 s, s.streamBytes 4, s.streamBytes 8, s.streamWord 4,
    s.streamWord 8, exec_fill_of_seeded hs rfl, exec_u32_of_seeded hs, exec_fill_of_seeded hs rfl,
    exec_u64_of_seeded hs, (runWord_x 4 s).trans (runFill_x 4 s).symm, (runWord_x 8 s).trans (runFill_x 8 s).symm,
    runFill_sent 4 s, streamBytes_length s 4, runFill_sent 8 s, streamBytes_length s 8, runWord_sent 4 s,
    runWord_sent 8 s, streamWord_toNat_eq_sum s (by decide), streamWord_toNat_eq_sum s (by decide),
    streamWord_toNat_mod s (a := 4) (b := 4) (by decide)⟩

/-! ### Composability -/

/-- A FILL after a FILL sends the bytes that follow, as one FILL of both lengths would. -/
theorem runFill_runFill (a b : Nat) (s : State) :
    (runFill b (runFill a s)).x = (runFill (a + b) s).x ∧
      bytesOf (runFill b (runFill a s)).sent = bytesOf (runFill (a + b) s).sent := by
  constructor
  · rw [runFill_x, residueAt_of_x (runFill_n a s) (runFill_x a s), runFill_x, Nat.mul_add]
  · have hbytes : s.streamBytes a ++ (runFill a s).streamBytes b = s.streamBytes (a + b) :=
      streamBytes_of_x (runFill_n a s) (runFill_x a s) b
    simp only [runFill_sent, bytesOf_append, bytesOf_map_byte, bytesOf, List.append_nil, List.append_assoc,
      List.nil_append, hbytes]

/-- As `runSteps_bits`, whatever stands in the queue behind the BITs. -/
theorem runSteps_bits_append (k : Nat) {s : State} (hs : s.seeded = true) (rest : List HostMove) :
    runSteps k (s.setPending (List.replicate k (.command (encode .bit)) ++ rest)) =
      .next ((s.afterBits k).setPending rest) := by
  induction k generalizing s with
  | zero => rw [List.replicate_zero, List.nil_append, runSteps_zero, afterBits_zero]
  | succ k ih =>
    have hs1 : (s.afterBits 1).seeded = true := (afterBits_seeded s 1).trans hs
    rw [List.replicate_succ, List.cons_append, runSteps_succ (step_of_bit hs _), ih hs1, afterBits_afterBits,
      Nat.add_comm 1 k]

/-- The queue a state has, set again. -/
theorem setPending_of_eq {s : State} {l : List HostMove} (hp : s.pending = l) : s.setPending l = s := by
  rw [← hp, State.setPending]

/-- A bit of the stream as the number BIT answers. -/
theorem bitNat_streamBit (s : State) (k : Nat) : bitNat (s.streamBit k) = s.residueAt k % 2 := by
  rw [State.streamBit]
  obtain h | h := Nat.mod_two_eq_zero_or_one (s.residueAt k)
  · rw [h]; rfl
  · rw [h]; rfl

/-- The BIT that draws bit `j` answers bit `7 - j` of the byte that draws it. -/
theorem bitResponse_eq_streamByte (s : State) {j : Nat} (hj : j < 8) :
    bitResponse s j = .response ⟨.ok, BitVec.ofNat 64 (bitNat ((s.streamByte 0).getLsbD (7 - j)))⟩ := by
  rw [streamByte_getLsbD s 0 j hj, Nat.mul_zero, Nat.zero_add, bitNat_streamBit, bitResponse]

theorem fills_compose (s : State) (a b c : LenField) (hs : s.seeded = true) (hc : c.toNat = a.toNat + b.toNat) :
    ∃ s1 s2 t, exec (.fill a) s = .next s1 ∧ exec (.fill b) s1 = .next s2 ∧ exec (.fill c) s = .next t ∧
      t.x = s2.x ∧ bytesOf t.sent = bytesOf s2.sent := by
  obtain ⟨hx, hbytes⟩ := runFill_runFill a.toNat b.toNat s
  exact ⟨_, _, _, exec_fill_of_seeded hs rfl, exec_fill_of_seeded ((runFill_seeded _ s).trans hs) rfl,
    exec_fill_of_seeded hs hc, hx.symm, hbytes.symm⟩

theorem eight_bits_are_byte (s : State) (rest : List HostMove) (hs : s.seeded = true)
    (hp : s.pending = List.replicate 8 (.command (encode .bit)) ++ rest) :
    ∃ (t u : State) (b : Byte), runSteps 8 s = .next t ∧ exec .byte s = .next u ∧ t.x = u.x ∧
      u.sent = s.sent ++ [.byte b, .response ⟨.ok, 0⟩] ∧
      t.sent = s.sent ++ (List.range 8).map fun j =>
        OutEvent.response ⟨.ok, BitVec.ofNat 64 (bitNat (b.getLsbD (7 - j)))⟩ := by
  refine ⟨(s.afterBits 8).setPending rest, runFill 1 s, s.streamByte 0, ?run, ?byte, ?x, ?byteSent, ?bitsSent⟩
  case run =>
    have hrun := runSteps_bits_append 8 hs rest
    rwa [setPending_of_eq hp] at hrun
  case byte => rw [exec_byte, whenSeeded_of_seeded _ hs]
  case x => rw [setPending_x, afterBits_x, runFill_x, Nat.mul_one]
  case byteSent => rw [runFill_sent, streamBytes_one, List.append_assoc, List.map_singleton, List.singleton_append]
  case bitsSent =>
    rw [setPending_sent, State.afterBits]
    exact congrArg _ (List.map_congr_left fun j hj => bitResponse_eq_streamByte s (List.mem_range.mp hj))

/-- The little-endian word of four bytes. -/
theorem littleEndian_four (b0 b1 b2 b3 : Byte) : littleEndian [b0, b1, b2, b3] =
    b0.toNat + b1.toNat * 2 ^ 8 + b2.toNat * 2 ^ 16 + b3.toNat * 2 ^ 24 := by
  simp only [littleEndian]
  omega

theorem fill_four_gives_bytes_of_u32 (s : State) (hs : s.seeded = true) :
    ∃ (t u : State) (b0 b1 b2 b3 : Byte),
      exec (.fill 4) s = .next t ∧ exec .u32 s = .next u ∧ t.x = u.x ∧
      t.sent = s.sent ++ [.byte b0, .byte b1, .byte b2, .byte b3, .response ⟨.ok, 0⟩] ∧
      u.sent = s.sent ++ [.response ⟨.ok, BitVec.ofNat 64
        (b0.toNat + b1.toNat * 2 ^ 8 + b2.toNat * 2 ^ 16 + b3.toNat * 2 ^ 24)⟩] := by
  refine ⟨runFill 4 s, runWord 4 s, s.streamByte 0, s.streamByte 1, s.streamByte 2, s.streamByte 3,
    exec_fill_of_seeded hs rfl, exec_u32_of_seeded hs, ?x, ?bytes, ?value⟩
  case x => rw [runFill_x, runWord_x]
  case bytes =>
    rw [runFill_sent, streamBytes_four, List.append_assoc]
    simp only [List.map_cons, List.map_nil, List.cons_append, List.nil_append]
  case value => rw [runWord_sent, State.streamWord, streamBytes_four, littleEndian_four]

theorem fill_after_bit_starts_fresh (s : State) (len : LenField) (hs : s.seeded = true) :
    ∃ (s1 t : State) (out : List Byte), exec .bit s = .next s1 ∧ exec (.fill len) s1 = .next t ∧
      t.sent = s1.sent ++ out.map OutEvent.byte ++ [.response ⟨.ok, 0⟩] ∧ out.length = len.toNat ∧
      ∀ i j, i < len.toNat → j < 8 → (out.getD i 0).getLsbD (7 - j) = s.streamBit (1 + 8 * i + j) := by
  have hs1 : (s.afterBits 1).seeded = true := (afterBits_seeded s 1).trans hs
  refine ⟨s.afterBits 1, runFill len.toNat (s.afterBits 1), (s.afterBits 1).streamBytes len.toNat,
    exec_bit_of_seeded hs, exec_fill_of_seeded hs1 rfl, runFill_sent _ _, streamBytes_length _ _, fun i j hi hj => ?_⟩
  rw [streamBytes_getD_getLsbD _ hi hj, streamBit_of_x (afterBits_n s 1) (afterBits_x s 1), Nat.add_assoc]

/-- Settles O28: each command draws on from the residue the one before it left. -/
theorem streamIsComposable : Obligations.StreamIsComposable :=
  ⟨fills_compose, eight_bits_are_byte, fill_four_gives_bytes_of_u32, fill_after_bit_starts_fresh⟩

/-! ### Determinism -/

/-- Two blocks that were given the same LOAD are alike, whatever they held before. -/
theorem alike_of_loadInstance (s t : State) (n x0 : Nat) (l m : List HostMove) :
    Alike ((respond .ok 0 (s.loadInstance n x0)).setPending l) ((respond .ok 0 (t.loadInstance n x0)).setPending m) :=
  ⟨rfl, fun _ => ⟨rfl, rfl⟩⟩

/-- Settles O44: LOAD makes the blocks alike, and the commands keep them so. -/
theorem sameLoadSameStream : Obligations.SameLoadSameStream := by
  intro s t n x0 cs hns hnt hodd hone hlt hfit hps hpt
  obtain ⟨s', t', hs', ht', -, out, hos, hot⟩ :=
    (alike_of_loadInstance s t n x0 (cs.map .command) (cs.map .command)).runSteps rfl rfl hfit cs.length
  refine ⟨s', t', [.response ⟨.ok, 0⟩] ++ out, ?_, ?_, ?_, ?_⟩
  · rw [runSteps_succ (step_of_load hns hodd hone hlt hps), hs']
  · rw [runSteps_succ (step_of_load hnt hodd hone hlt hpt), ht']
  · rw [hos, ← List.append_assoc]; rfl
  · rw [hot, ← List.append_assoc]; rfl

end Sys2Proof.Machine

/-! PROOFS of 60_exceptions.md: which status every command answers (rules R150 to R154), the order of priority (rule
R157), that an error has no effect but its response (rule R155), and what can fail on a seeded block (rule R160). -/

namespace Sys2Proof.Machine

/-! ### The commands that need a seed -/

/-- The command decodes to one of the four that draw from the stream, BIT, FILL, U32 and U64 (rule R153). -/
def NeedsSeed (c : Command) : Prop :=
  decode c = .ok .bit ∨ (∃ len, decode c = .ok (.fill len)) ∨ decode c = .ok .u32 ∨ decode c = .ok .u64

/-- They are all that the decoder gives but LOAD and STAT. -/
theorem needsSeed_iff (c : Command) :
    NeedsSeed c ↔ ∃ i, decode c = .ok i ∧ (∀ n x0, i ≠ .load n x0) ∧ i ≠ .stat := by
  constructor
  · rintro (hd | ⟨len, hd⟩ | hd | hd)
    all_goals exact ⟨_, hd, nofun, nofun⟩
  · rintro ⟨i, hd, hload, hstat⟩
    rcases decode_inv hd with rfl | rfl | rfl | rfl | rfl | rfl
    case inl => exact absurd rfl (hload _ _)
    case inr.inl => exact absurd rfl hstat
    case inr.inr.inl => exact .inl hd
    case inr.inr.inr.inl => exact .inr (.inl ⟨_, hd⟩)
    case inr.inr.inr.inr.inl => exact .inr (.inr (.inl hd))
    case inr.inr.inr.inr.inr => exact .inr (.inr (.inr hd))

/-- The operands of a decoded LOAD are what stands on the ports (30_encoding.md rule R63). -/
theorem decode_load_operands {c : Command} {n x0 : Nat} (hd : decode c = .ok (.load n x0)) :
    n = c.opn ∧ x0 = c.opx := by
  rcases decode_inv hd with h | h | h | h | h | h
  case inl => cases h; exact ⟨rfl, rfl⟩
  all_goals cases h

/-! ### The order of priority -/

/-- A command that needs the seed and has none raises. -/
theorem accept_of_unseeded {c : Command} {s : State} (hs : s.seeded = false) (h : NeedsSeed c) :
    accept c s = .next (raise .notSeeded s) := by
  obtain ⟨i, hd, hload, hstat⟩ := (needsSeed_iff c).mp h
  rw [accept_of_decode_ok hd, exec_of_unseeded hload hstat hs]

/-- Settles O32: each clause is the first of the block's checks that fails. -/
theorem errorPriority : Obligations.ErrorPriority := by
  refine ⟨fun c s e hd => ?illegal, fun c s hs hneeds => ?unseeded, fun c s ⟨hn, _⟩ hd hm => ?modulus,
    fun c s ⟨hn, hx⟩ hd hm hseed => ?seed⟩
  case illegal => rw [accept_of_decode_error hd, raise_eq]
  case unseeded => rw [accept_of_unseeded hs hneeds, raise_eq]
  case modulus => rw [accept_of_decode_ok hd, exec_load_of_badModulus hn hm, raise_eq]
  case seed => rw [accept_of_decode_ok hd, exec_load_of_badSeed hn hx hm hseed, raise_eq]

/-! ### The status of an instruction -/

/-- The status an instruction whose operands fit the ports ends with: LOAD's checks in their order, the seed for every
other instruction but STAT. -/
def execStatus (i : Instr) (s : State) : Status :=
  match i with
  | .load n x0 =>
    if badModulus n then .error .modulusInvariant
    else if badSeed n x0 then .error .seedRange
    else .ok
  | .stat => .ok
  | .bit | .fill _ | .u32 | .u64 | .byte | .tryfill _ | .nopfill => if s.seeded then .ok else .error .notSeeded

section ExecStatus

variable {i : Instr} {s : State}

theorem execStatus_of_ready (hload : ∀ n x0, i ≠ .load n x0) (hs : i = .stat ∨ s.seeded = true) :
    execStatus i s = .ok := by
  cases i with
  | load n x0 => exact absurd rfl (hload n x0)
  | stat => rfl
  | bit | fill | u32 | u64 | byte | tryfill | nopfill => exact if_pos (hs.resolve_left nofun)

theorem execStatus_of_unseeded (hload : ∀ n x0, i ≠ .load n x0) (hstat : i ≠ .stat) (hs : s.seeded = false) :
    execStatus i s = .error .notSeeded := by
  cases i with
  | load n x0 => exact absurd rfl (hload n x0)
  | stat => exact absurd rfl hstat
  | bit | fill | u32 | u64 | byte | tryfill | nopfill => exact if_neg (Bool.eq_false_iff.mp hs)

end ExecStatus

/-! ### What the response says -/

/-- The last that left the block in `t` is a response of status `st`, its value 0 if that is an error. -/
def Answers (st : Status) (t : State) : Prop :=
  ∃ v, t.sent.getLast? = some (.response ⟨st, v⟩) ∧ (st ≠ .ok → v = 0)

theorem answers_raise (e : CmdError) (s : State) : Answers (.error e) (raise e s) :=
  ⟨0, List.getLast?_concat, fun _ => rfl⟩

theorem answers_respond_ok (v : RespVal) (s : State) : Answers .ok (respond .ok v s) :=
  ⟨v, List.getLast?_concat, fun h => absurd rfl h⟩

theorem answers_afterDraw (s : State) (i : Instr) : Answers .ok (s.afterDraw i) :=
  ⟨responseValue i s, by simp [State.afterDraw, deliveries], fun h => absurd rfl h⟩

/-- An instruction whose operands fit the ports answers its status. -/
theorem exec_answers {i : Instr} {s : State} (hw : i.wellFormed s.width = true) :
    ∃ t, exec i s = .next t ∧ Answers (execStatus i s) t := by
  obtain ⟨n, x0, rfl⟩ | ⟨hload, hs⟩ | ⟨hload, hstat, hs⟩ := load_or_ready_or_unseeded i s
  · simp only [Instr.wellFormed, Bool.and_eq_true, decide_eq_true_eq] at hw
    obtain ⟨hn, hx⟩ := hw
    rw [execStatus]
    split
    case isTrue hm => exact ⟨_, exec_load_of_badModulus hn hm, answers_raise _ s⟩
    case isFalse hm =>
      split
      case isTrue hseed => exact ⟨_, exec_load_of_badSeed hn hx hm hseed, answers_raise _ s⟩
      case isFalse hseed => exact ⟨_, exec_load_of_good hn hx hm hseed, answers_respond_ok 0 _⟩
  · rw [execStatus_of_ready hload hs]
    exact ⟨_, exec_of_ready hload hs, answers_afterDraw s i⟩
  · rw [execStatus_of_unseeded hload hstat hs]
    exact ⟨_, exec_of_unseeded hload hstat hs, answers_raise _ s⟩

/-! ### The status of a command -/

/-- The status a command whose operands fit the ports ends with: illegality is decided first. -/
def commandStatus (c : Command) (s : State) : Status :=
  match decode c with
  | .ok i => execStatus i s
  | .error _ => .error .illegalCmd

section CommandStatus

variable {c : Command} {s : State}

theorem commandStatus_of_decode_ok {i : Instr} (hd : decode c = .ok i) : commandStatus c s = execStatus i s := by
  rw [commandStatus, hd]

theorem commandStatus_of_decode_error {e : IllegalCause} (hd : decode c = .error e) :
    commandStatus c s = .error .illegalCmd := by
  rw [commandStatus, hd]

/-- What makes a command whose operands fit the ports end in an error (rules R151 to R154). -/
def ErrorCause (c : Command) (s : State) : CmdError → Prop
  | .modulusInvariant => decode c = .ok (.load c.opn c.opx) ∧ badModulus c.opn
  | .seedRange => decode c = .ok (.load c.opn c.opx) ∧ ¬ badModulus c.opn ∧ badSeed c.opn c.opx
  | .notSeeded => s.seeded = false ∧ NeedsSeed c
  | .illegalCmd => ∃ ill, decode c = .error ill

theorem errorCause_of_commandStatus {e : CmdError} (h : commandStatus c s = .error e) : ErrorCause c s e := by
  cases hd : decode c with
  | error ill =>
    cases (commandStatus_of_decode_error hd).symm.trans h
    exact ⟨ill, hd⟩
  | ok i =>
    rw [commandStatus_of_decode_ok hd] at h
    obtain ⟨n, x0, rfl⟩ | ⟨hload, hs⟩ | ⟨hload, hstat, hs⟩ := load_or_ready_or_unseeded i s
    · obtain ⟨rfl, rfl⟩ := decode_load_operands hd
      rw [execStatus] at h
      split at h
      case isTrue hm => cases h; exact ⟨hd, hm⟩
      case isFalse hm =>
        split at h
        case isTrue hseed => cases h; exact ⟨hd, hm, hseed⟩
        case isFalse => cases h
    · cases (execStatus_of_ready hload hs).symm.trans h
    · cases (execStatus_of_unseeded hload hstat hs).symm.trans h
      exact ⟨hs, (needsSeed_iff c).mpr ⟨i, hd, hload, hstat⟩⟩

theorem commandStatus_of_errorCause {e : CmdError} (h : ErrorCause c s e) : commandStatus c s = .error e := by
  cases e with
  | modulusInvariant =>
    obtain ⟨hd, hm⟩ := h
    rw [commandStatus_of_decode_ok hd, execStatus, if_pos hm]
  | seedRange =>
    obtain ⟨hd, hm, hseed⟩ := h
    rw [commandStatus_of_decode_ok hd, execStatus, if_neg hm, if_pos hseed]
  | notSeeded =>
    obtain ⟨hs, hneeds⟩ := h
    obtain ⟨i, hd, hload, hstat⟩ := (needsSeed_iff c).mp hneeds
    rw [commandStatus_of_decode_ok hd, execStatus_of_unseeded hload hstat hs]
  | illegalCmd =>
    obtain ⟨_, hd⟩ := h
    exact commandStatus_of_decode_error hd

/-- Each error has its one cause, and the causes exclude each other. -/
theorem commandStatus_eq_error_iff (c : Command) (s : State) (e : CmdError) :
    commandStatus c s = .error e ↔ ErrorCause c s e :=
  ⟨errorCause_of_commandStatus, commandStatus_of_errorCause⟩

/-- A command whose operands fit the ports answers its status. -/
theorem accept_answers (hc : c.fits s.width) : ∃ t, accept c s = .next t ∧ Answers (commandStatus c s) t := by
  cases hd : decode c with
  | error e =>
    rw [commandStatus_of_decode_error hd]
    exact ⟨_, accept_of_decode_error hd s, answers_raise _ s⟩
  | ok i =>
    rw [commandStatus_of_decode_ok hd, accept_of_decode_ok hd]
    exact exec_answers (decode_wellFormed hc hd)

end CommandStatus

/-- Settles O31: the status answered is `commandStatus`, and each error of that has its one cause. -/
theorem statusOfEveryCommand : Obligations.StatusOfEveryCommand := by
  refine ⟨⟨rfl, rfl, rfl, rfl, rfl⟩, fun c s hc => ?_⟩
  obtain ⟨t, ht, v, hlast, hzero⟩ := accept_answers hc
  have hiff := commandStatus_eq_error_iff c s
  exact ⟨t, commandStatus c s, v, ht, hlast, hiff .illegalCmd, hiff .notSeeded, hiff .modulusInvariant,
    hiff .seedRange, hzero⟩

/-! ### Precision -/

/-- A command whose last output is an error response has only raised that error. -/
theorem Ends.eq_raise {k : Nat} {s t : State} {e : CmdError} {v : RespVal} (h : Ends k s t)
    (hlast : t.sent.getLast? = some (.response ⟨.error e, v⟩)) : t = raise e s := by
  obtain ⟨bs, r, hsent, herr, -⟩ := h
  rw [hsent, List.getLast?_concat] at hlast
  cases hlast
  obtain ⟨-, ht⟩ := herr e rfl
  exact ht

/-- Settles O33: of the ways a command ends, only raising leaves an error response. -/
theorem errorsArePrecise : Obligations.ErrorsArePrecise := by
  intro c s t e v ht hlast
  obtain ⟨t', ht', hends⟩ := accept_ends c s
  cases ht.symm.trans ht'
  rw [hends.eq_raise hlast, raise_eq]

/-! ### A seeded block -/

/-- On a seeded block a legal command other than LOAD answers OK. -/
theorem accept_answers_ok_of_seeded {c : Command} {s : State} {i : Instr} (hs : s.seeded = true)
    (hd : decode c = .ok i) (hload : ∀ n x0, i ≠ .load n x0) : ∃ t, accept c s = .next t ∧ Answers .ok t := by
  rw [accept_of_decode_ok hd, exec_of_ready hload (.inr hs)]
  exact ⟨_, rfl, answers_afterDraw s i⟩

/-- An error response to a command with operands that fit tells its cause. -/
theorem errorCause_of_response {c : Command} {s t : State} {e : CmdError} {v : RespVal} (hc : c.fits s.width)
    (ht : accept c s = .next t) (hlast : t.sent.getLast? = some (.response ⟨.error e, v⟩)) : ErrorCause c s e := by
  obtain ⟨t', ht', v', hlast', -⟩ := accept_answers hc
  cases ht.symm.trans ht'
  have hst : commandStatus c s = .error e := by
    simp only [hlast', Option.some.injEq, OutEvent.response.injEq, Response.mk.injEq] at hlast
    exact hlast.1
  exact errorCause_of_commandStatus hst

/-- Settles O34: with a seed the only causes of an error left are the word and LOAD's checks. -/
theorem seededBlockFailsOnlyOnLoadOrIllegal : Obligations.SeededBlockFailsOnlyOnLoadOrIllegal := by
  intro c s hs
  refine ⟨fun hlegal => ?legal, fun t e v hc ht hlast => ?fails⟩
  case legal =>
    have hd : ∃ i, decode c = .ok i ∧ ∀ n x0, i ≠ .load n x0 := by
      obtain hd | ⟨len, hd⟩ | hd | hd | hd := hlegal
      all_goals exact ⟨_, hd, nofun⟩
    obtain ⟨i, hd, hload⟩ := hd
    obtain ⟨t, ht, v, hlast, -⟩ := accept_answers_ok_of_seeded hs hd hload
    exact ⟨t, v, ht, hlast⟩
  case fails =>
    have hcause := errorCause_of_response hc ht hlast
    cases e with
    | modulusInvariant =>
      obtain ⟨hd, hm⟩ := hcause
      exact .inr ⟨hd, hm.imp_right .inl⟩
    | seedRange =>
      obtain ⟨hd, -, hseed⟩ := hcause
      exact .inr ⟨hd, .inr (.inr hseed)⟩
    | notSeeded =>
      obtain ⟨hunseeded, -⟩ := hcause
      exact absurd (hs.symm.trans hunseeded) nofun
    | illegalCmd => exact .inl hcause

end Sys2Proof.Machine

/-! PROOFS of 70_reset_and_hazards.md: what an unseeded block answers, as often as it is tried (rule R183). -/

namespace Sys2Proof.Machine

/-! ### The output commands on the channel -/

/-- Each of the four output commands is presented as a command that needs the seed. -/
theorem needsSeed_encode {i : Instr} (h : i = .bit ∨ (∃ len, i = .fill len) ∨ i = .u32 ∨ i = .u64) :
    NeedsSeed (encode i) := by
  rcases h with rfl | ⟨len, rfl⟩ | rfl | rfl
  case inl => exact .inl decode_encode_bit
  case inr.inl => exact .inr (.inl ⟨_, decode_of_fill (opField_commandWord 0x04 len) 0 0⟩)
  case inr.inr.inl => exact .inr (.inr (.inl (decode_of_u32 (by decide) (by decide) 0 0)))
  case inr.inr.inr => exact .inr (.inr (.inr (decode_of_u64 (by decide) (by decide) 0 0)))

/-! ### Tries on an unseeded block -/

/-- What `k` tries of commands that need the seed make of a block that has none. -/
def State.afterUnseededTries (s : State) (k : Nat) : State :=
  { s with sent := s.sent ++ List.replicate k (.response ⟨.error .notSeeded, 0⟩) }

theorem afterUnseededTries_zero (s : State) : s.afterUnseededTries 0 = s := by
  rw [State.afterUnseededTries, List.replicate_zero, List.append_nil]

/-- The tries after the first. -/
theorem afterUnseededTries_raise (s : State) (k : Nat) :
    (raise .notSeeded s).afterUnseededTries k = s.afterUnseededTries (k + 1) := by
  rw [raise_eq, State.afterUnseededTries, State.afterUnseededTries, List.replicate_succ, List.append_assoc,
    List.singleton_append]

/-- A command that needs the seed, at the head of the queue of a block that has none. -/
theorem step_of_unseeded {s : State} {c : Command} (hs : s.seeded = false) (hc : NeedsSeed c)
    (rest : List HostMove) :
    step (s.setPending (.command c :: rest)) = .next ((raise .notSeeded s).setPending rest) := by
  rw [step_of_command (setPending_pending s _), setPending_setPending,
    accept_of_unseeded (s := s.setPending rest) hs hc]
  rfl

/-- Every try raises and leaves the block unseeded, so the next one does as well. -/
theorem runSteps_unseeded {s : State} (hs : s.seeded = false) {cs : List Command} (hcs : ∀ c ∈ cs, NeedsSeed c) :
    runSteps cs.length (s.setPending (cs.map .command)) =
      .next ((s.afterUnseededTries cs.length).setPending []) := by
  induction cs generalizing s with
  | nil => rw [List.length_nil, afterUnseededTries_zero]; rfl
  | cons c cs ih =>
    obtain ⟨hc, hrest⟩ := List.forall_mem_cons.mp hcs
    have hraise : (raise .notSeeded s).seeded = false := hs
    rw [List.length_cons, List.map_cons, runSteps_succ (step_of_unseeded hs hc _), ih hraise hrest,
      afterUnseededTries_raise]

/-- STAT reports that SEEDED is 0. -/
theorem exec_stat_of_unseeded {s : State} (hs : s.seeded = false) :
    exec .stat s = .next { s with sent := s.sent ++ [.response ⟨.ok, 0⟩] } := by
  rw [exec_stat, respond_eq, statusWord, hs]
  rfl

/-- Settles O35: the tries by induction on their list, STAT and LOAD from what they do in every state. -/
theorem unseededBlockOnlyLoadsAndReports : Obligations.UnseededBlockOnlyLoadsAndReports := by
  refine ⟨fun s is hs his hp => ?tries, fun s hs => exec_stat_of_unseeded hs,
    fun s n x0 _ hn hodd hone hlt => ⟨_, exec_load_of_odd hn hodd hone hlt, rfl, rfl⟩⟩
  case tries =>
    have hneeds : ∀ c ∈ is.map encode, NeedsSeed c :=
      List.forall_mem_map.mpr fun i hi => needsSeed_encode (his i hi)
    have hqueue : s.pending = (is.map encode).map .command := by rw [hp, List.map_map]; rfl
    have hrun := runSteps_unseeded hs hneeds
    rwa [setPending_of_eq hqueue, List.length_map] at hrun

end Sys2Proof.Machine

/-! PROOFS of 30_encoding.md: that decoding and encoding agree (rules R61 and R72), and that LOAD alone reads the ports
(rules R63 and R64). -/

namespace Sys2Proof.Machine

/-! ### The decoder against the encoder -/

/-- A word is that of its opcode and its `LEN` (30_encoding.md rule R60). -/
theorem eq_commandWord {w : CmdWord} {op : OpField} {len : LenField} (hop : (opField w).toNat = op.toNat)
    (hlen : lenField w = len) : w = commandWord op len := by
  rw [← commandWord_fields w, BitVec.eq_of_toNat_eq hop, hlen]

/-- A decoder arm that demands `LEN = 0` answers only on the word of its instruction. -/
theorem word_of_requireZeroLen {w : CmdWord} {op : OpField} {i j : Instr} (hi : encodeWord i = commandWord op 0)
    (hop : (opField w).toNat = op.toNat) (h : requireZeroLen w i = .ok j) : w = encodeWord j := by
  have hlen : lenField w = 0 := by
    by_contra hne
    obtain ⟨e, he⟩ := (requireZeroLen_error_iff w i).mpr hne
    cases he.symm.trans h
  rw [requireZeroLen_inv h, hi, eq_commandWord hop hlen]

/-- The decoder reads an instruction from no word but the instruction's own (30_encoding.md rule R61). -/
theorem word_of_decode {c : Command} {i : Instr} (h : decode c = .ok i) : c.word = encodeWord i := by
  rw [decode] at h
  split at h
  case h_1 hop => exact word_of_requireZeroLen (op := 0x01) rfl hop h
  case h_2 hop => exact word_of_requireZeroLen (op := 0x02) rfl hop h
  case h_3 hop => exact word_of_requireZeroLen (op := 0x03) rfl hop h
  case h_4 hop => cases h; exact eq_commandWord (op := 0x04) hop rfl
  case h_5 hop => exact word_of_requireZeroLen (op := 0x05) rfl hop h
  case h_6 hop => exact word_of_requireZeroLen (op := 0x06) rfl hop h
  case h_7 => cases h

theorem isCore_of_decode {c : Command} {i : Instr} (h : decode c = .ok i) : i.isCore = true := by
  rcases decode_inv h with rfl | rfl | rfl | rfl | rfl | rfl
  all_goals rfl

/-- The word of LOAD, by its fields; the operands are what stands on the ports (30_encoding.md rules R61 and R63). -/
theorem decode_of_load {w : CmdWord} (hop : opField w = 0x01) (hlen : lenField w = 0) (opn opx : Nat) :
    decode ⟨w, opn, opx⟩ = .ok (.load opn opx) := by
  simp [decode, hop, requireZeroLen, hlen]

/-- The word of any instruction decodes to the core command it stands for, if the ports hold what a LOAD loads. -/
theorem decode_encodeWord {i : Instr} {opn opx : Nat} (hports : ∀ n x0, i = .load n x0 → opn = n ∧ opx = x0) :
    decode ⟨encodeWord i, opn, opx⟩ = .ok i.expand := by
  have hfill : ∀ len, decode ⟨commandWord 0x04 len, opn, opx⟩ = .ok (.fill len) := fun len => by
    rw [decode_of_fill (opField_commandWord _ _), lenField_commandWord]
  cases i with
  | load n x0 =>
    obtain ⟨rfl, rfl⟩ := hports n x0 rfl
    exact decode_of_load (opField_commandWord _ _) (lenField_commandWord _ _) _ _
  | stat => exact decode_of_stat (opField_commandWord _ _) (lenField_commandWord _ _) _ _
  | bit => exact decode_of_bit (opField_commandWord _ _) (lenField_commandWord _ _) _ _
  | fill len => exact hfill len
  | u32 => exact decode_of_u32 (opField_commandWord _ _) (lenField_commandWord _ _) _ _
  | u64 => exact decode_of_u64 (opField_commandWord _ _) (lenField_commandWord _ _) _ _
  | byte => exact hfill 1
  | tryfill len => exact hfill len
  | nopfill => exact hfill 0

theorem encode_word (i : Instr) : (encode i).word = encodeWord i := by
  cases i with
  | load | stat | bit | fill | u32 | u64 | byte | tryfill | nopfill => rfl

/-- An instruction presented on the channel decodes to the core command it stands for (30_encoding.md rule R72). -/
theorem decode_encode (i : Instr) : decode (encode i) = .ok i.expand := by
  have hports : ∀ n x0, i = .load n x0 → (encode i).opn = n ∧ (encode i).opx = x0 := by
    rintro n x0 rfl
    exact ⟨rfl, rfl⟩
  rw [← decode_encodeWord hports, ← encode_word]

theorem expand_of_isCore {i : Instr} (h : i.isCore = true) : i.expand = i := by
  cases i with
  | load | stat | bit | fill | u32 | u64 => rfl
  | byte | tryfill | nopfill => cases h

/-- Settles O1: the word of an instruction decodes to its core command, and what decodes is such a word. -/
theorem decodeEncodeAgree : Obligations.DecodeEncodeAgree := by
  refine ⟨decode_encode, fun i => expand_of_isCore, fun c i => ⟨fun h => ?decoded, fun ⟨hcore, hword, hports⟩ => ?word⟩⟩
  case decoded =>
    refine ⟨isCore_of_decode h, word_of_decode h, ?_⟩
    rintro n x0 rfl
    obtain ⟨rfl, rfl⟩ := decode_load_operands h
    exact ⟨rfl, rfl⟩
  case word =>
    have hd := decode_encodeWord hports
    rwa [← hword, expand_of_isCore hcore] at hd

/-- Settles O2: each word by its fields. -/
theorem tableWordsDecode : Obligations.TableWordsDecode :=
  ⟨decode_of_load (by decide) (by decide) 143 2, decode_of_stat (by decide) (by decide) 0 0,
    decode_of_bit (by decide) (by decide) 0 0, decode_of_fill (by decide) 0 0,
    decode_of_u32 (by decide) (by decide) 0 0, decode_of_u64 (by decide) (by decide) 0 0⟩

/-! ### The ports -/

/-- A decoder arm that demands `LEN = 0` answers on two instructions alike, unless it answers the first. -/
theorem requireZeroLen_congr {w : CmdWord} {i j : Instr} (h : requireZeroLen w i ≠ .ok i) :
    requireZeroLen w i = requireZeroLen w j := by
  rw [requireZeroLen] at h
  split at h
  case isTrue => exact absurd rfl h
  case isFalse hlen => rw [requireZeroLen, requireZeroLen, if_neg hlen, if_neg hlen]

/-- A word that is not a LOAD decodes alike whatever stands on the ports. -/
theorem decode_ports {w : CmdWord} {opn opx : Nat} (h : ∀ n x0, decode ⟨w, opn, opx⟩ ≠ .ok (.load n x0))
    (opn' opx' : Nat) : decode ⟨w, opn, opx⟩ = decode ⟨w, opn', opx'⟩ := by
  have hload := h opn opx
  simp only [decode] at hload ⊢
  split
  case h_1 hop =>
    rw [hop] at hload
    exact requireZeroLen_congr hload
  all_goals rfl

/-- Settles O4: LOAD passes both checks with what it reads from the ports; no other word reads them. -/
theorem portsReadByLoadOnly : Obligations.PortsReadByLoadOnly := by
  refine ⟨fun s n x0 hn hlt hodd hone => ?load, fun s w a b a' b' hload => ?others⟩
  case load => rw [accept_of_decode_ok (decode_of_load (by decide) (by decide) n x0), exec_load_of_odd hn hodd hone hlt]
  case others => rw [accept, accept, decode_ports hload a' b']

/-- The port carries the low bits of what it carries. -/
theorem portValue_portValue (w v : Nat) : portValue w (portValue w v) = portValue w v :=
  portValue_of_fits (portValue_lt w v)

/-- LOAD sees of its operands what the ports carry (30_encoding.md rules R63 and R64). -/
theorem exec_load_portValue (s : State) (n x0 : Nat) :
    exec (.load (portValue s.width n) (portValue s.width x0)) s = exec (.load n x0) s := by
  rw [exec_load, exec_load, execLoad, execLoad, portValue_portValue, portValue_portValue]

/-- Settles O13: the operands are read through the ports. -/
theorem portsCarryWBits : Obligations.PortsCarryWBits :=
  fun s n x0 => (exec_load_portValue s n x0).symm

end Sys2Proof.Machine

/-! PROOFS of 10_state.md and 70_reset_and_hazards.md section 1: what a command writes (section 9), the invariant of
every run (rule R24), and reset, between commands and inside one (rules R180 to R182). -/

namespace Sys2Proof.Machine

/-! ### What a command writes -/

/-- An accepted command raises, seeds the block, or draws. -/
theorem accept_ways {c : Command} {s t : State} (h : accept c s = .next t) :
    Raises s t ∨ ∃ i, decode c = .ok i ∧ (Begins i s t ∨ Draws i s t) := by
  obtain ⟨_, -, rfl⟩ | ⟨i, hd, -, hraises | hruns⟩ := accept_inv h
  · exact .inl ⟨_, rfl⟩
  · exact .inl hraises
  · exact .inr ⟨i, hd, hruns⟩

/-- A LOAD of operands that fit the ports raises or seeds the block with them. -/
theorem exec_load_inv {s t : State} {n x0 : Nat} (hn : n < 2 ^ s.width) (hx : x0 < 2 ^ s.width)
    (h : exec (.load n x0) s = .next t) : Raises s t ∨ t = respond .ok 0 (s.loadInstance n x0) := by
  obtain hraises | ⟨_, _, hi, -, -, rfl⟩ | ⟨hload, -⟩ := exec_inv h
  · exact .inl hraises
  · cases hi
    rw [portValue_of_fits hn, portValue_of_fits hx]
    exact .inr rfl
  · exact absurd rfl (hload n x0)

/-- A command that is not a LOAD moves X along its stream and leaves N and SEEDED. -/
theorem accept_registers {c : Command} {s t : State} (h : accept c s = .next t)
    (hload : ∀ n x0, decode c ≠ .ok (.load n x0)) :
    t.n = s.n ∧ t.seeded = s.seeded ∧ ∃ k, t.x = s.residueAt k := by
  obtain ⟨_, rfl⟩ | ⟨i, hd, ⟨n, x0, rfl, -⟩ | ⟨-, -, _, _, rfl⟩⟩ := accept_ways h
  · exact ⟨rfl, rfl, 0, rfl⟩
  · exact absurd hd (hload n x0)
  · exact ⟨rfl, rfl, advances i, rfl⟩

/-- A command neither counts a reset nor clears SEEDED (10_state.md section 9). -/
theorem accept_keeps {c : Command} {s t : State} (h : accept c s = .next t) :
    t.resets = s.resets ∧ (s.seeded = true → t.seeded = true) := by
  obtain ⟨_, rfl⟩ | ⟨_, -, ⟨_, _, -, -, -, rfl⟩ | ⟨-, -, _, _, rfl⟩⟩ := accept_ways h
  · exact ⟨rfl, id⟩
  · exact ⟨rfl, fun _ => rfl⟩
  · exact ⟨rfl, id⟩

/-- Settles O36: by the three ways an accepted command can end. -/
theorem commandFrame : Obligations.CommandFrame := by
  intro c s t h
  obtain ⟨hwidth, hpending⟩ := accept_frame h
  obtain ⟨hresets, hseeded⟩ := accept_keeps h
  refine ⟨hwidth, hpending, hresets, hseeded, accept_registers h, fun n x0 hn hx hd => ?load⟩
  case load =>
    rw [accept_of_decode_ok hd] at h
    obtain ⟨_, rfl⟩ | rfl := exec_load_inv hn hx h
    · exact .inl ⟨rfl, rfl, rfl⟩
    · exact .inr ⟨rfl, rfl, rfl⟩

/-! ### The advances of a command (42_facade.md rule R132) -/

/-- An instruction that needs no seed or has one advances X as often as it says. -/
theorem exec_x_of_ready {i : Instr} {s t : State} (hload : ∀ n x0, i ≠ .load n x0) (hs : i = .stat ∨ s.seeded = true)
    (h : exec i s = .next t) : t.x = s.residueAt (advances i) := by
  rw [exec_of_ready hload hs, Host.Outcome.next.injEq] at h
  rw [← h, State.afterDraw]

/-- Settles O30: LOAD by its two ways to end, the commands that draw by `exec_x_of_ready`. -/
theorem advancesPerCommand : Obligations.AdvancesPerCommand := by
  refine ⟨fun s t n x0 hn hx h => ?load, fun s t h => exec_x_of_ready (i := .stat) nofun (.inl rfl) h,
    fun s t hs h => exec_x_of_ready (i := .bit) nofun (.inr hs) h,
    fun s t len hs h => exec_x_of_ready (i := .fill len) nofun (.inr hs) h,
    fun s t hs h => exec_x_of_ready (i := .u32) nofun (.inr hs) h,
    fun s t hs h => exec_x_of_ready (i := .u64) nofun (.inr hs) h, fun c s t e v h hlast => ?error⟩
  case load =>
    obtain ⟨_, rfl⟩ | rfl := exec_load_inv hn hx h
    · exact .inl rfl
    · exact .inr ⟨rfl, rfl⟩
  case error =>
    obtain ⟨t', ht', hends⟩ := accept_ends c s
    cases h.symm.trans ht'
    rw [hends.eq_raise hlast, raise_eq]

/-! ### An abandoned command -/

/-- An abandoned command sends the first of the bytes it would have sent, and does nothing else
(70_reset_and_hazards.md rule R181). -/
theorem abandon_eq (c : Command) (s : State) : ∃ (t : State) (bs : List Byte) (r : Response) (k : Nat),
    accept c s = .next t ∧ t.sent = s.sent ++ bs.map OutEvent.byte ++ [.response r] ∧
      abandon c s = { s with sent := s.sent ++ (bs.take k).map OutEvent.byte } := by
  obtain ⟨t, ht, bs, r, hsent, -, -⟩ := accept_ends c s
  obtain ⟨t', ht', habandon⟩ := abandon_cases c s
  cases ht.symm.trans ht'
  have hbeats : beatsBetween s.sent t.sent = bs.map OutEvent.byte := by
    have hbytes : ∀ o ∈ bs.map OutEvent.byte, o.isByte = true := List.forall_mem_map.mpr fun _ _ => rfl
    rw [hsent, List.append_assoc, beatsBetween_append, List.filter_append, List.filter_eq_self.mpr hbytes]
    exact List.append_nil _
  exact ⟨t, bs, r, _, ht, hsent, by rw [habandon, hbeats, ← List.map_take]⟩

/-! ### Steps by the move they take -/

theorem step_of_resetMove {s : State} {rest : List HostMove} (hp : s.pending = .reset :: rest) :
    step s = .next (resetBlock (s.setPending rest)) := by
  simp only [step, hp, takeMove]

theorem step_of_resetDuring {s : State} {c : Command} {rest : List HostMove} (hp : s.pending = .resetDuring c :: rest) :
    step s = .next (resetBlock (abandon c (s.setPending rest))) := by
  simp only [step, hp, takeMove]

/-- Settles O39: the reset move runs `resetBlock`. -/
theorem resetClearsSeeded : Obligations.ResetClearsSeeded := by
  refine ⟨fun s rest hp => ?_, rfl, rfl, rfl⟩
  refine ⟨portValue s.width (Config.resetN s.resets s.n), portValue s.width (Config.resetX s.resets s.x),
    portValue_lt _ _, portValue_lt _ _, ?_⟩
  rw [step_of_resetMove hp]
  rfl

/-- Settles O40: a step that takes no reset is idle or a command, and neither clears SEEDED. -/
theorem onlyResetClearsSeeded : Obligations.OnlyResetClearsSeeded := by
  intro s t h hs ht
  obtain ⟨-, rfl⟩ | ⟨c, rest, -, hc⟩ | ⟨rest, hp, -⟩ | ⟨c, rest, hp, -⟩ := step_inv h
  case inl => exact absurd (hs.symm.trans ht) nofun
  case inr.inl =>
    obtain ⟨-, hkeeps⟩ := accept_keeps hc
    exact absurd ((hkeeps hs).symm.trans ht) nofun
  case inr.inr.inl => exact ⟨rest, .inl hp⟩
  case inr.inr.inr => exact ⟨rest, .inr ⟨c, hp⟩⟩

/-- Settles O41: the abandoned command leaves the first of its bytes, and then the reset is that of any block. -/
theorem abandonedCommandDeliversPrefix : Obligations.AbandonedCommandDeliversPrefix := by
  intro s c rest hp
  obtain ⟨u, bs, r, k, hu, hsent, habandon⟩ := abandon_eq c (s.setPending rest)
  refine ⟨u, bs.take k, portValue s.width (Config.resetN s.resets s.n), portValue s.width (Config.resetX s.resets s.x),
    portValue_lt _ _, portValue_lt _ _, hu, ?bytes, ?step⟩
  case bytes =>
    have hbytes : bytesOf (u.sent.drop s.sent.length) = bs := by
      rw [hsent, setPending_sent, List.append_assoc, List.drop_left, bytesOf_append, bytesOf_map_byte]
      exact List.append_nil bs
    rw [hbytes]
    exact List.take_prefix k bs
  case step =>
    rw [step_of_resetDuring hp, habandon]
    rfl

/-! ### The invariant (10_state.md rule R24) -/

/-- Any reset leaves W-bit registers and an unseeded block. -/
theorem resetBlock_sound {s : State} (hw : ValidWidth s.width) : (resetBlock s).Sound :=
  ⟨hw, portValue_lt _ _, portValue_lt _ _, nofun⟩

/-- Operands that passed LOAD's checks seed the block as rule R24 demands. -/
theorem loadInstance_sound {s : State} (hs : s.Sound) {n x0 : Nat} (hm : ¬ badModulus (portValue s.width n))
    (hseed : ¬ badSeed (portValue s.width n) (portValue s.width x0)) :
    (s.loadInstance (portValue s.width n) (portValue s.width x0)).Sound := by
  obtain ⟨hw, -⟩ := hs
  obtain ⟨hodd, hone⟩ := (not_badModulus_iff _).mp hm
  exact ⟨hw, portValue_lt _ _, portValue_lt _ _, fun _ => ⟨hodd, hone, Nat.not_le.mp hseed⟩⟩

/-- Advances keep the invariant; only a seeded block makes any. -/
theorem setX_residueAt_sound {s : State} (hs : s.Sound) {k : Nat} (hk : k = 0 ∨ s.seeded = true) :
    (s.setX (s.residueAt k)).Sound := by
  obtain rfl | hseeded := hk
  · exact hs
  · obtain ⟨hw, hn, -, hinst⟩ := hs
    obtain ⟨hodd, hone, hlt⟩ := hinst hseeded
    have hx : s.residueAt k < s.n := residueAt_lt hlt k
    exact ⟨hw, hn, hx.trans hn, fun _ => ⟨hodd, hone, hx⟩⟩

theorem accept_sound {c : Command} {s t : State} (hs : s.Sound) (h : accept c s = .next t) : t.Sound := by
  obtain ⟨_, rfl⟩ | ⟨i, -, ⟨_, _, -, hm, hseed, rfl⟩ | ⟨-, hready, _, _, rfl⟩⟩ := accept_ways h
  case inl => exact hs
  case inr.inl => exact loadInstance_sound hs hm hseed
  case inr.inr =>
    have hk : advances i = 0 ∨ s.seeded = true := hready.imp_left fun hi => by rw [hi, advances]
    exact setX_residueAt_sound hs hk

/-- Settles O37: an idle step changes nothing, an accepted command keeps the invariant, and a reset restores it. -/
theorem stepKeepsSound : Obligations.StepKeepsSound := by
  intro s t hs h
  obtain ⟨-, rfl⟩ | ⟨c, rest, -, hc⟩ | ⟨rest, -, rfl⟩ | ⟨c, rest, -, rfl⟩ := step_inv h
  case inl => exact hs
  case inr.inl => exact accept_sound (s := s.setPending rest) hs hc
  case inr.inr.inl => exact resetBlock_sound hs.1
  case inr.inr.inr =>
    obtain ⟨_, _, _, _, -, -, habandon⟩ := abandon_eq c (s.setPending rest)
    rw [habandon]
    exact resetBlock_sound hs.1

theorem width_valid : ValidWidth Config.width := by
  rw [Config.width]
  omega

theorem resetAt_sound {w : Nat} (hw : ValidWidth w) : (State.resetAt w).Sound :=
  ⟨hw, portValue_lt _ _, portValue_lt _ _, nofun⟩

/-- Settles O38: the registers of `State.resetAt` are cut to the width, and the width of the build is valid. -/
theorem resetIsSound : Obligations.ResetIsSound :=
  ⟨fun _ => resetAt_sound, resetAt_sound width_valid⟩

end Sys2Proof.Machine

/-! PROOFS of 20_memory.md sections 1 and 6 and 60_exceptions.md section 6: a step runs the command at the head of the
queue, an idle block holds its state, every command is answered, and what was sent stays sent. -/

namespace Sys2Proof.Machine

/-! ### One step -/

/-- Settles O6: the command at the head of the queue is accepted, and accepting it is what its word decodes to. -/
theorem stepRunsDecodedCommand : Obligations.StepRunsDecodedCommand := by
  refine ⟨fun s c rest i hp hd => step_of_decode_ok hp hd, fun s c rest e hp hd => ?_⟩
  rw [step_of_command hp, accept_of_decode_error hd]
  rfl

/-- Settles O7: by induction on the number of steps. -/
theorem idleBlockHoldsState : Obligations.IdleBlockHoldsState := by
  intro s k hp
  induction k with
  | zero => rfl
  | succ k ih => rw [runSteps_succ (step_of_idle hp), ih]

/-! ### What was sent stays sent -/

theorem accept_sent_prefix {c : Command} {s t : State} (h : accept c s = .next t) : s.sent <+: t.sent := by
  obtain ⟨t', ht', bs, r, hsent, -, -⟩ := accept_ends c s
  cases h.symm.trans ht'
  rw [hsent, List.append_assoc]
  exact List.prefix_append _ _

/-- Settles O10: by the move the step takes. -/
theorem outputsOnlyAppend : Obligations.OutputsOnlyAppend := by
  intro s t h
  obtain ⟨-, rfl⟩ | ⟨c, rest, -, hc⟩ | ⟨rest, -, rfl⟩ | ⟨c, rest, -, rfl⟩ := step_inv h
  case inl => exact List.prefix_rfl
  case inr.inl => exact accept_sent_prefix (s := s.setPending rest) hc
  case inr.inr.inl => exact List.prefix_rfl
  case inr.inr.inr =>
    obtain ⟨_, _, _, _, -, -, habandon⟩ := abandon_eq c (s.setPending rest)
    rw [resetBlock_sent, habandon]
    exact List.prefix_append _ _

/-! ### No command hangs -/

/-- The moves that the block answers: the commands, not the resets, and not a command that a reset cuts
(70_reset_and_hazards.md rules R181 and R192). -/
def HostMove.isAnswered : HostMove → Bool
  | .command _ => true
  | .reset => false
  | .resetDuring _ => false

/-- A step takes the move at the head of the queue and answers it if it is one to be answered. -/
theorem step_answers {s : State} {m : HostMove} {rest : List HostMove} (hp : s.pending = m :: rest) :
    ∃ t, step s = .next t ∧ t.pending = rest ∧
      (responsesOf t.sent).length = (responsesOf s.sent).length + if m.isAnswered then 1 else 0 := by
  cases m with
  | command c =>
    obtain ⟨t, ht, bs, r, hsent, -, -⟩ := accept_ends c (s.setPending rest)
    obtain ⟨-, hpending⟩ := accept_frame ht
    refine ⟨t, (step_of_command hp).trans ht, hpending, ?_⟩
    simp [hsent, responsesOf, HostMove.isAnswered]
  | reset => exact ⟨_, step_of_resetMove hp, rfl, rfl⟩
  | resetDuring c =>
    obtain ⟨_, _, _, _, -, -, habandon⟩ := abandon_eq c (s.setPending rest)
    refine ⟨_, step_of_resetDuring hp, ?_, ?_⟩
    · rw [resetBlock_pending, habandon]; rfl
    · rw [resetBlock_sent, habandon, responsesOf_append, responsesOf_map_byte, List.append_nil]; rfl

/-- As many steps as the queue is long work it off and answer its commands. -/
theorem runSteps_answers (l : List HostMove) {s : State} (hp : s.pending = l) :
    ∃ t, runSteps l.length s = .next t ∧ t.pending = [] ∧
      (responsesOf t.sent).length = (responsesOf s.sent).length + (l.filter HostMove.isAnswered).length := by
  induction l generalizing s with
  | nil => exact ⟨s, rfl, hp, rfl⟩
  | cons m rest ih =>
    obtain ⟨u, hu, hrest, hcount⟩ := step_answers hp
    obtain ⟨t, ht, hempty, htotal⟩ := ih hrest
    refine ⟨t, (runSteps_succ hu).trans ht, hempty, ?_⟩
    rw [htotal, hcount, List.filter_cons]
    split
    · rw [List.length_cons]; omega
    · rfl

/-- Settles O8: by induction on the queue. -/
theorem everyCommandIsAnswered : Obligations.EveryCommandIsAnswered :=
  fun s => runSteps_answers s.pending rfl

end Sys2Proof.Machine

/-! PROOFS of what the host can learn: nothing of N and X while SEEDED is 0 (10_state.md section 8), nothing of the
width of the block (00_scope.md rule R6), and of a seeded block one bit an advance (10_state.md rule R28). -/

namespace Sys2Proof.Machine

/-! ### What the ports carry of a command -/

/-- The command as a block of width `w` reads it off its ports (30_encoding.md rules R63 and R64). -/
def commandOnPorts (w : Nat) (c : Command) : Command := ⟨c.word, portValue w c.opn, portValue w c.opx⟩

theorem commandOnPorts_fits (w : Nat) (c : Command) : (commandOnPorts w c).fits w :=
  ⟨portValue_lt _ _, portValue_lt _ _⟩

theorem commandOnPorts_of_fits {w : Nat} {c : Command} (h : c.fits w) : commandOnPorts w c = c := by
  obtain ⟨hn, hx⟩ := h
  rw [commandOnPorts, portValue_of_fits hn, portValue_of_fits hx]

/-- The block answers what it reads off its ports. -/
theorem accept_commandOnPorts (c : Command) (s : State) : accept (commandOnPorts s.width c) s = accept c s := by
  by_cases hload : ∃ n x0, decode c = .ok (.load n x0)
  · obtain ⟨n, x0, hd⟩ := hload
    have hd' : decode (commandOnPorts s.width c) = .ok (.load (portValue s.width c.opn) (portValue s.width c.opx)) := by
      rw [commandOnPorts, word_of_decode hd]
      exact decode_of_load (opField_commandWord _ _) (lenField_commandWord _ _) _ _
    obtain ⟨rfl, rfl⟩ := decode_load_operands hd
    rw [accept_of_decode_ok hd', accept_of_decode_ok hd, exec_load_portValue]
  · have hother : ∀ n x0, decode c ≠ .ok (.load n x0) := fun n x0 hd => hload ⟨n, x0, hd⟩
    rw [accept, accept, commandOnPorts, ← decode_ports hother]

/-- As `Alike.accept`, for a command that both blocks read alike off their ports. -/
theorem Alike.accept_of_commandOnPorts {s t : State} (h : Alike s t) {c : Command}
    (hc : commandOnPorts s.width c = commandOnPorts t.width c) :
    ∃ s' t', Machine.accept c s = .next s' ∧ Machine.accept c t = .next t' ∧ SendAlike s t s' t' := by
  have hfit : (commandOnPorts s.width c).fits t.width := hc ▸ commandOnPorts_fits t.width c
  rw [← accept_commandOnPorts c s, ← accept_commandOnPorts c t, ← hc]
  exact h.accept (commandOnPorts_fits s.width c) hfit

/-! ### Two blocks under the same moves -/

/-- Two blocks under the same moves, resets of both kinds among them: a host that reads the responses cannot tell them
apart, and if `uncut` holds, in which case no reset cuts a command, not by the bytes either. -/
structure Twins (uncut : Prop) (s t : State) : Prop where
  alike : Alike s t
  pending : t.pending = s.pending
  ports : ∀ c, .command c ∈ s.pending → commandOnPorts s.width c = commandOnPorts t.width c
  responses : responsesOf s.sent = responsesOf t.sent
  noCut : uncut → ∀ m ∈ s.pending, ∀ c, m ≠ .resetDuring c
  sent : uncut → s.sent = t.sent

section TwinBlocks

variable {uncut : Prop} {s t : State} (h : Twins uncut s t)
include h

/-- What is to be shown of a pair of steps that take the move at the head of both queues. -/
theorem Twins.of_step {s' t' : State} {m : HostMove} {rest : List HostMove} (hp : s.pending = m :: rest)
    (hs : s'.width = s.width ∧ s'.pending = rest) (ht : t'.width = t.width ∧ t'.pending = rest) (halike : Alike s' t')
    (hresponses : responsesOf s'.sent = responsesOf t'.sent) (hsent : uncut → s'.sent = t'.sent) :
    Twins uncut s' t' := by
  obtain ⟨hws, hqs⟩ := hs
  obtain ⟨hwt, hqt⟩ := ht
  refine ⟨halike, hqt.trans hqs.symm, fun c hc => ?_, hresponses, fun hu m' hm => ?_, hsent⟩
  · rw [hws, hwt]
    exact h.ports c (hp ▸ List.mem_cons_of_mem m (hqs ▸ hc))
  · exact h.noCut hu m' (hp ▸ List.mem_cons_of_mem m (hqs ▸ hm))

theorem Twins.step_command {c : Command} {rest : List HostMove} (hp : s.pending = .command c :: rest) :
    ∃ s' t', step s = .next s' ∧ step t = .next t' ∧ Twins uncut s' t' := by
  have halike : Alike (s.setPending rest) (t.setPending rest) := ⟨h.alike.seeded, h.alike.inst⟩
  obtain ⟨s', t', hs, ht, hafter, out, hos, hot⟩ :=
    halike.accept_of_commandOnPorts (h.ports c (hp ▸ List.mem_cons_self))
  refine ⟨s', t', (step_of_command hp).trans hs, (step_of_command (h.pending.trans hp)).trans ht,
    h.of_step hp (accept_frame hs) (accept_frame ht) hafter ?_ fun hu => ?_⟩
  · rw [hos, hot, responsesOf_append, responsesOf_append]
    exact congrArg (· ++ responsesOf out) h.responses
  · rw [hos, hot]
    exact congrArg (· ++ out) (h.sent hu)

theorem Twins.step_reset {rest : List HostMove} (hp : s.pending = .reset :: rest) :
    ∃ s' t', step s = .next s' ∧ step t = .next t' ∧ Twins uncut s' t' :=
  ⟨_, _, step_of_resetMove hp, step_of_resetMove (h.pending.trans hp),
    h.of_step hp ⟨rfl, rfl⟩ ⟨rfl, rfl⟩ (.of_unseeded rfl rfl) h.responses h.sent⟩

/-- A reset that cuts a command leaves bytes of it that may differ, and no response. -/
theorem Twins.step_resetDuring {c : Command} {rest : List HostMove} (hp : s.pending = .resetDuring c :: rest) :
    ∃ s' t', step s = .next s' ∧ step t = .next t' ∧ Twins uncut s' t' := by
  obtain ⟨_, bs, _, k, -, -, hs⟩ := abandon_eq c (s.setPending rest)
  obtain ⟨_, bs', _, k', -, -, ht⟩ := abandon_eq c (t.setPending rest)
  refine ⟨_, _, step_of_resetDuring hp, step_of_resetDuring (h.pending.trans hp), ?_⟩
  rw [hs, ht]
  refine h.of_step hp ⟨rfl, rfl⟩ ⟨rfl, rfl⟩ (.of_unseeded rfl rfl) ?_ fun hu => ?_
  · rw [resetBlock_sent, resetBlock_sent, responsesOf_append, responsesOf_append, responsesOf_map_byte,
      responsesOf_map_byte, List.append_nil, List.append_nil]
    exact h.responses
  · exact absurd rfl (h.noCut hu (.resetDuring c) (hp ▸ List.mem_cons_self) c)

/-- The invariant of the two runs: a step of each keeps them twins. -/
theorem Twins.step : ∃ s' t', step s = .next s' ∧ step t = .next t' ∧ Twins uncut s' t' := by
  cases hp : s.pending with
  | nil => exact ⟨s, t, step_of_idle hp, step_of_idle (h.pending.trans hp), h⟩
  | cons m rest =>
    cases m with
    | command c => exact h.step_command hp
    | reset => exact h.step_reset hp
    | resetDuring c => exact h.step_resetDuring hp

/-- All that the host can tell of two runs from twins. -/
theorem Twins.runSteps (k : Nat) : ∃ s' t', runSteps k s = .next s' ∧ runSteps k t = .next t' ∧
    responsesOf s'.sent = responsesOf t'.sent ∧ s'.seeded = t'.seeded ∧
    (s'.seeded = true → s'.n = t'.n ∧ s'.x = t'.x) ∧ (uncut → s'.sent = t'.sent) := by
  obtain ⟨s', t', hs, ht, htwins⟩ := runSteps_related (R := Twins uncut) (fun _ _ hR => hR.step) k h
  exact ⟨s', t', hs, ht, htwins.responses, htwins.alike.seeded, htwins.alike.inst, htwins.sent⟩

end TwinBlocks

/-- Settles O42: unseeded blocks of one width that differ in N and X alone are twins. -/
theorem unseededRegistersUnobservable : Obligations.UnseededRegistersUnobservable := by
  intro s a b k hs
  have htwins : Twins (∀ m ∈ s.pending, ∀ c, m ≠ .resetDuring c) s { s with n := a, x := b } :=
    ⟨.of_unseeded hs hs, rfl, fun _ _ => rfl, rfl, id, fun _ => rfl⟩
  exact htwins.runSteps k

/-- Settles O45: blocks that differ in their width alone are twins if both hold the operands to come. -/
theorem outputsIndependentOfWidth : Obligations.OutputsIndependentOfWidth := by
  intro s w k hfit
  have hports : ∀ c, .command c ∈ s.pending → commandOnPorts s.width c = commandOnPorts w c := fun c hc => by
    obtain ⟨hs, hw⟩ := hfit (.command c) hc c (.inl rfl)
    rw [commandOnPorts_of_fits hs, commandOnPorts_of_fits hw]
  have htwins : Twins (∀ m ∈ s.pending, ∀ c, m ≠ .resetDuring c) s { s with width := w } :=
    ⟨⟨rfl, fun _ => ⟨rfl, rfl⟩⟩, rfl, hports, rfl, id, fun _ => rfl⟩
  exact htwins.runSteps k

/-! ### The bits that a command reads of the stream -/

/-- The first `k` bits of the two streams are the same. -/
def BitsAgree (k : Nat) (s t : State) : Prop := ∀ j, j < k → s.streamBit j = t.streamBit j

theorem BitsAgree.mono {k m : Nat} {s t : State} (h : BitsAgree k s t) (hm : m ≤ k) : BitsAgree m s t :=
  fun j hj => h j (hj.trans_le hm)

theorem bitsAgree_of_eq {s t : State} (hn : s.n = t.n) (hx : s.x = t.x) (k : Nat) : BitsAgree k s t :=
  fun j _ => streamBit_congr hn hx j

/-- The bits are those of N and X, whatever else the blocks hold. -/
theorem BitsAgree.of_registers {k : Nat} {s t s' t' : State} (h : BitsAgree k s t) (hs : s'.n = s.n ∧ s'.x = s.x)
    (ht : t'.n = t.n ∧ t'.x = t.x) : BitsAgree k s' t' := by
  obtain ⟨hns, hxs⟩ := hs
  obtain ⟨hnt, hxt⟩ := ht
  intro j hj
  rw [streamBit_congr hns hxs, streamBit_congr hnt hxt, h j hj]

/-- A byte is its eight bits. -/
theorem BitsAgree.streamByte {s t : State} {i : Nat} (h : BitsAgree (8 * i + 8) s t) :
    s.streamByte i = t.streamByte i := by
  refine BitVec.eq_of_getLsbD_eq fun j hj => ?_
  obtain ⟨m, hm, rfl⟩ : ∃ m, m < 8 ∧ j = 7 - m := ⟨7 - j, by omega, by omega⟩
  rw [streamByte_getLsbD s i m hm, streamByte_getLsbD t i m hm, h _ (by omega)]

theorem BitsAgree.streamBytes {s t : State} {k : Nat} (h : BitsAgree (8 * k) s t) :
    s.streamBytes k = t.streamBytes k := by
  refine List.map_congr_left fun i hi => ?_
  have hi := List.mem_range.mp hi
  exact BitsAgree.streamByte (h.mono (by omega))

/-- The bytes an instruction sends are made of bits it advances over. -/
theorem fillLength_le_advances (i : Instr) : 8 * fillLength i ≤ advances i := by
  cases i with
  | load | stat | bit | u32 | u64 | nopfill => exact Nat.zero_le _
  | fill | byte | tryfill => exact Nat.le_refl _

theorem BitsAgree.responseValue {i : Instr} {s t : State} (hseeded : s.seeded = t.seeded)
    (h : BitsAgree (advances i) s t) : responseValue i s = responseValue i t := by
  cases i with
  | stat => rw [Machine.responseValue, Machine.responseValue, statusWord, statusWord, hseeded]
  | bit => rw [Machine.responseValue, Machine.responseValue, h 0 Nat.one_pos]
  | u32 => rw [Machine.responseValue, Machine.responseValue, BitsAgree.streamBytes (k := 4) h]
  | u64 => rw [Machine.responseValue, Machine.responseValue, BitsAgree.streamBytes (k := 8) h]
  | load | fill | byte | tryfill | nopfill => rfl

/-- What an instruction sends reads the bits it advances over and nothing else of N and X (10_state.md rule R28). -/
theorem BitsAgree.deliveries {i : Instr} {s t : State} (hseeded : s.seeded = t.seeded)
    (h : BitsAgree (advances i) s t) : deliveries i s = deliveries i t := by
  rw [Machine.deliveries, Machine.deliveries, (h.mono (fillLength_le_advances i)).streamBytes, h.responseValue hseeded]

theorem streamBit_afterDraw (s : State) (i : Instr) (k : Nat) :
    (s.afterDraw i).streamBit k = s.streamBit (advances i + k) :=
  streamBit_of_x (s := s) (t := s.afterDraw i) rfl rfl k

/-! ### Two seeded blocks of one width -/

/-- Two seeded blocks of one width whose next `k` bits are the same. -/
structure SameBits (k : Nat) (s t : State) : Prop where
  width : s.width = t.width
  seeded : s.seeded = true
  seeded' : t.seeded = true
  bits : BitsAgree k s t

/-- From `s` and `t` the blocks have come to `s'` and `t'`, their next `k` bits are the same, and they have sent the
same. -/
def SendSame (k : Nat) (s t s' t' : State) : Prop :=
  SameBits k s' t' ∧ ∃ out, s'.sent = s.sent ++ out ∧ t'.sent = t.sent ++ out

/-- LOAD on blocks of one width: its checks see what the ports carry and nothing of the block. -/
theorem exec_load_of_width {s t : State} (hw : s.width = t.width) (n x0 : Nat) :
    (∃ e, exec (.load n x0) s = .next (raise e s) ∧ exec (.load n x0) t = .next (raise e t)) ∨
      ∃ n' x', exec (.load n x0) s = .next (respond .ok 0 (s.loadInstance n' x')) ∧
        exec (.load n x0) t = .next (respond .ok 0 (t.loadInstance n' x')) := by
  rw [exec_load, exec_load, execLoad, execLoad, ← hw]
  by_cases hm : badModulus (portValue s.width n)
  · exact .inl ⟨_, if_pos hm, if_pos hm⟩
  rw [if_neg hm, if_neg hm]
  by_cases hseed : badSeed (portValue s.width n) (portValue s.width x0)
  · exact .inl ⟨_, if_pos hseed, if_pos hseed⟩
  · exact .inr ⟨_, _, if_neg hseed, if_neg hseed⟩

/-- How many advances a command word makes on a seeded block. -/
def commandAdvances (c : Command) : Nat :=
  match decode c with
  | .ok i => advances i
  | .error _ => 0

theorem advancesOf_cons (c : Command) (cs : List Command) :
    advancesOf (c :: cs) = commandAdvances c + advancesOf cs := by
  rw [advancesOf, List.map_cons, List.sum_cons]
  rfl

section SameBitsBlocks

variable {k : Nat} {s t : State}

theorem SameBits.raise (h : SameBits k s t) (e : CmdError) : SendSame k s t (raise e s) (raise e t) :=
  ⟨⟨h.width, h.seeded, h.seeded', h.bits.of_registers ⟨rfl, rfl⟩ ⟨rfl, rfl⟩⟩, [.response ⟨.error e, 0⟩], rfl, rfl⟩

/-- After the same LOAD the streams are the same for ever. -/
theorem SameBits.loadInstance (h : SameBits k s t) (n x0 : Nat) :
    SendSame k s t (respond .ok 0 (s.loadInstance n x0)) (respond .ok 0 (t.loadInstance n x0)) :=
  ⟨⟨h.width, rfl, rfl, bitsAgree_of_eq (by rfl) (by rfl) k⟩, [.response ⟨.ok, 0⟩], rfl, rfl⟩

theorem SameBits.afterDraw {i : Instr} (h : SameBits (advances i + k) s t) :
    SendSame k s t (s.afterDraw i) (t.afterDraw i) := by
  have hout : deliveries i s = deliveries i t :=
    (h.bits.mono (Nat.le_add_right _ _)).deliveries (h.seeded.trans h.seeded'.symm)
  refine ⟨⟨h.width, h.seeded, h.seeded', fun j hj => ?_⟩, deliveries i s, rfl, hout ▸ rfl⟩
  rw [streamBit_afterDraw, streamBit_afterDraw, h.bits _ (Nat.add_lt_add_left hj _)]

theorem SameBits.exec {i : Instr} (h : SameBits (advances i + k) s t) :
    ∃ s' t', exec i s = .next s' ∧ exec i t = .next t' ∧ SendSame k s t s' t' := by
  by_cases hload : ∃ n x0, i = .load n x0
  · obtain ⟨n, x0, rfl⟩ := hload
    rw [advances, Nat.zero_add] at h
    obtain ⟨e, hs, ht⟩ | ⟨n', x', hs, ht⟩ := exec_load_of_width h.width n x0
    · exact ⟨_, _, hs, ht, h.raise e⟩
    · exact ⟨_, _, hs, ht, h.loadInstance n' x'⟩
  · have hother : ∀ n x0, i ≠ .load n x0 := fun n x0 hi => hload ⟨n, x0, hi⟩
    exact ⟨_, _, exec_of_ready hother (.inr h.seeded), exec_of_ready hother (.inr h.seeded'), h.afterDraw⟩

theorem SameBits.accept {c : Command} (h : SameBits (commandAdvances c + k) s t) :
    ∃ s' t', accept c s = .next s' ∧ accept c t = .next t' ∧ SendSame k s t s' t' := by
  cases hd : decode c with
  | error e =>
    rw [commandAdvances, hd, Nat.zero_add] at h
    exact ⟨_, _, accept_of_decode_error hd s, accept_of_decode_error hd t, h.raise _⟩
  | ok i =>
    rw [commandAdvances, hd] at h
    rw [accept_of_decode_ok hd, accept_of_decode_ok hd]
    exact h.exec

theorem SameBits.setPending (h : SameBits k s t) (l m : List HostMove) :
    SameBits k (s.setPending l) (t.setPending m) :=
  ⟨h.width, h.seeded, h.seeded', h.bits.of_registers ⟨rfl, rfl⟩ ⟨rfl, rfl⟩⟩

end SameBitsBlocks

/-- Settles O46: by induction on the commands, each of which reads the bits it advances over. -/
theorem hostLearnsOnlyLowBits : Obligations.HostLearnsOnlyLowBits := by
  intro s t cs hw hs ht hbits hps hpt
  have h : SameBits (advancesOf cs) s t := ⟨hw, hs, ht, hbits⟩
  clear hw hs ht hbits
  induction cs generalizing s t with
  | nil => exact ⟨s, t, [], rfl, rfl, (List.append_nil _).symm, (List.append_nil _).symm⟩
  | cons c cs ih =>
    rw [advancesOf_cons] at h
    obtain ⟨s1, t1, hs1, ht1, h1, out, hos, hot⟩ := (h.setPending (cs.map .command) (cs.map .command)).accept
    obtain ⟨-, hqs⟩ := accept_frame hs1
    obtain ⟨-, hqt⟩ := accept_frame ht1
    obtain ⟨s', t', out', hs', ht', hos', hot'⟩ := ih s1 t1 hqs hqt h1
    refine ⟨s', t', out ++ out', ?_, ?_, ?_, ?_⟩
    · rw [List.length_cons, runSteps_succ ((step_of_command hps).trans hs1), hs']
    · rw [List.length_cons, runSteps_succ ((step_of_command hpt).trans ht1), ht']
    · rw [hos', hos, List.append_assoc]; rfl
    · rw [hot', hot, List.append_assoc]; rfl

end Sys2Proof.Machine

/-! PROOFS of 70_reset_and_hazards.md section 3: any mix of commands but LOAD draws one stream of bits (rule R191). -/

namespace Sys2Proof.Machine

/-! ### The bits that the output of a command carries -/

theorem bytesOf_deliveries (i : Instr) (s : State) : bytesOf (deliveries i s) = s.streamBytes (fillLength i) := by
  rw [deliveries, bytesOf_append, bytesOf_map_byte]
  exact List.append_nil _

theorem valueOf_deliveries (i : Instr) (s : State) : valueOf (deliveries i s) = responseValue i s := by
  rw [deliveries, valueOf, responsesOf_append, responsesOf_map_byte]
  rfl

/-- The bits that a command's output carries are the bits it advances over, in order. -/
theorem drawnBits_deliveries (i : Instr) (s : State) :
    drawnBits i (deliveries i s) = (List.range (advances i)).map s.streamBit := by
  cases i with
  | load | stat => rfl
  | bit =>
    rw [drawnBits, valueOf_deliveries, responseValue, bitValue_getLsbD, decide_eq_true rfl, Bool.true_and]
    rfl
  | u32 => rw [drawnBits, valueOf_deliveries, responseValue, wordBits_streamBytes s (by decide)]; rfl
  | u64 => rw [drawnBits, valueOf_deliveries, responseValue, wordBits_streamBytes s (by decide)]; rfl
  | fill | byte | tryfill | nopfill => rw [drawnBits, bytesOf_deliveries, streamBytes_bits]; rfl

/-! ### A mix of commands -/

/-- What each of a sequence of commands other than LOAD sends on a seeded block. -/
def deliveriesOf : List Instr → State → List (List OutEvent)
  | [], _ => []
  | i :: is, s => deliveries i s :: deliveriesOf is (s.afterDraw i)

theorem deliveriesOf_length (is : List Instr) (s : State) : (deliveriesOf is s).length = is.length := by
  induction is generalizing s with
  | nil => rfl
  | cons i is ih => rw [deliveriesOf, List.length_cons, List.length_cons, ih]

/-- Each is bytes and then one OK response. -/
theorem deliveriesOf_forms (is : List Instr) (s : State) :
    ∀ o ∈ deliveriesOf is s, ∃ (bs : List Byte) (v : RespVal), o = bs.map OutEvent.byte ++ [.response ⟨.ok, v⟩] := by
  induction is generalizing s with
  | nil => exact nofun
  | cons i is ih =>
    exact List.forall_mem_cons.mpr ⟨⟨s.streamBytes (fillLength i), responseValue i s, rfl⟩, ih (s.afterDraw i)⟩

/-- No command carries more or fewer bits than it makes advances. -/
theorem deliveriesOf_lengths (is : List Instr) (s : State) :
    List.zipWith (fun i o => (drawnBits i o).length) is (deliveriesOf is s) = is.map advances := by
  induction is generalizing s with
  | nil => rfl
  | cons i is ih =>
    rw [deliveriesOf, List.zipWith_cons_cons, ih, drawnBits_deliveries, List.length_map, List.length_range,
      List.map_cons]

/-- The bits of all of them, in order, are the first bits of the stream. -/
theorem deliveriesOf_bits (is : List Instr) (s : State) :
    (List.zipWith drawnBits is (deliveriesOf is s)).flatten =
      (List.range (is.map advances).sum).map s.streamBit := by
  induction is generalizing s with
  | nil => rfl
  | cons i is ih =>
    have hshift : (s.afterDraw i).streamBit = s.streamBit ∘ (advances i + ·) := funext (streamBit_afterDraw s i)
    rw [deliveriesOf, List.zipWith_cons_cons, List.flatten_cons, ih, drawnBits_deliveries, List.map_cons, List.sum_cons,
      List.range_add, List.map_append, List.map_map, hshift]

/-- All that a sequence of commands other than LOAD does on a seeded block. -/
theorem foldl_afterDraw (is : List Instr) (s : State) : is.foldl State.afterDraw s = { s with
    x := s.residueAt (is.map advances).sum
    sent := s.sent ++ (deliveriesOf is s).flatten } := by
  induction is generalizing s with
  | nil => simp [deliveriesOf]
  | cons i is ih =>
    have hx : (s.afterDraw i).residueAt (is.map advances).sum = s.residueAt (advances i + (is.map advances).sum) :=
      residueAt_of_x (s := s) (t := s.afterDraw i) rfl rfl _
    rw [List.foldl_cons, ih, hx, List.map_cons, List.sum_cons, deliveriesOf, List.flatten_cons, ← List.append_assoc]
    rfl

/-- The queue plays no part in what a command draws. -/
theorem afterDraw_setPending (s : State) (i : Instr) (l : List HostMove) :
    (s.setPending l).afterDraw i = (s.afterDraw i).setPending l := by
  have hx : (s.setPending l).residueAt (advances i) = s.residueAt (advances i) :=
    residueAt_congr (setPending_n s l) (setPending_x s l) _
  have hout : deliveries i (s.setPending l) = deliveries i s :=
    (bitsAgree_of_eq (setPending_n s l) (setPending_x s l) _).deliveries rfl
  rw [State.afterDraw, hx, hout, State.afterDraw, State.setPending, State.setPending]

/-- A command other than LOAD at the head of the queue of a seeded block. -/
theorem step_of_ready {s : State} {i : Instr} (hs : s.seeded = true) (hload : ∀ n x0, i ≠ .load n x0)
    (rest : List HostMove) :
    step (s.setPending (.command (encode i) :: rest)) = .next ((s.afterDraw i).setPending rest) := by
  rw [step_of_decode_ok (setPending_pending s _) (decode_encode i), exec_expand, setPending_setPending,
    exec_of_ready (s := s.setPending rest) hload (.inr hs), afterDraw_setPending]

theorem runSteps_mix {s : State} {is : List Instr} (hs : s.seeded = true) (hload : ∀ i ∈ is, ∀ n x0, i ≠ .load n x0)
    (rest : List HostMove) :
    runSteps is.length (s.setPending ((is.map fun i => .command (encode i)) ++ rest)) =
      .next ((is.foldl State.afterDraw s).setPending rest) := by
  induction is generalizing s with
  | nil => rfl
  | cons i is ih =>
    obtain ⟨hi, hrest⟩ := List.forall_mem_cons.mp hload
    have hs1 : (s.afterDraw i).seeded = true := hs
    rw [List.length_cons, List.map_cons, List.cons_append, runSteps_succ (step_of_ready hs hi _), ih hs1 hrest,
      List.foldl_cons]

/-- Settles O47: the outputs are `deliveriesOf`, each drawn from the residue that the command before it left. -/
theorem anyMixDrawsOneStream : Obligations.AnyMixDrawsOneStream := by
  intro s is rest hs hload hp
  refine ⟨deliveriesOf is s, deliveriesOf_forms is s, deliveriesOf_length is s, deliveriesOf_lengths is s,
    deliveriesOf_bits is s, ?_⟩
  have hrun := runSteps_mix hs hload rest
  rwa [setPending_of_eq hp, foldl_afterDraw] at hrun

end Sys2Proof.Machine

/-! PROOFS of 00_scope.md rule R10 and of 41_bitgenerator.md: what ModExp is, the one transition (rule R100), that the
stream repeats (rule R104), its degenerate seeds (rule R105), and when the state map is a permutation (rule R106). -/

namespace Sys2Proof.Machine

/-! ### ModExp (00_scope.md rule R10) -/

theorem modExp_zero_base {e n : Nat} (he : 1 ≤ e) : modExp 0 e n = 0 := by
  rw [modExp, zero_pow (by omega), Nat.zero_mod]

theorem modExp_one_base {e n : Nat} (hn : 1 < n) : modExp 1 e n = 1 := by
  rw [modExp, one_pow, Nat.mod_eq_of_lt hn]

/-- Modulo `n`, `n - 1` is `-1`, whose odd powers are itself. -/
theorem modExp_pred_base {e n : Nat} (hn : 1 < n) (he : Odd e) : modExp (n - 1) e n = n - 1 := by
  have hpred : ((n - 1 : Nat) : ZMod n) = -1 := by
    rw [Nat.cast_sub hn.le, ZMod.natCast_self, Nat.cast_one, zero_sub]
  have hpow : (n - 1) ^ e ≡ n - 1 [MOD n] := by
    rw [← ZMod.natCast_eq_natCast_iff, Nat.cast_pow, hpred, he.neg_one_pow]
  rw [modExp, hpow, Nat.mod_eq_of_lt (by omega)]

/-- Settles O15: the definition, its bound, and the three fixed points. -/
theorem modExpFacts : Obligations.ModExpFacts :=
  ⟨fun _ _ _ => rfl, fun _ _ _ hn => modExp_lt hn, fun _ _ he _ => modExp_zero_base he,
    fun _ _ hn => modExp_one_base hn, fun _ _ hn he => modExp_pred_base hn (Nat.odd_iff.mpr he)⟩

theorem odd_E : Odd Config.E := by decide

/-- Settles O16: the bit is that of the residue found, and X moves on by one. -/
theorem transitionExtractsThenAdvances : Obligations.TransitionExtractsThenAdvances := by
  intro s
  rw [advanceAndExtract_eq, State.streamBit, residueAt_succ_eq_pow, residueAt_zero]
  rfl

/-- BIT on a seeded block whose N and X are known. -/
theorem exec_bit_of_image {s : State} {n x y : Nat} (hs : s.seeded = true) (hn : s.n = n) (hx : s.x = x)
    (hy : modExp x Config.E n = y) : exec .bit s = .next { s with
      x := y, sent := s.sent ++ [.response ⟨.ok, BitVec.ofNat 64 (x % 2)⟩] } := by
  subst hn hx hy
  rw [exec_bit_of_seeded hs, State.afterBits, residueAt_succ, residueAt_zero, List.range_one, List.map_singleton,
    bitResponse, residueAt_zero]

theorem modExp_three_2752557 : modExp 3 Config.E 2752557 = 2475198 := by rw [modExp_E_by_squaring]; decide

theorem modExp_fifteen_2752557 : modExp 15 Config.E 2752557 = 2475198 := by rw [modExp_E_by_squaring]; decide

theorem modExp_three_9 : modExp 3 Config.E 9 = 0 := by rw [modExp_E_by_squaring]; decide

/-- Settles O21: the images of the residues in the two examples of rule R106. -/
theorem exponentConditionIsSilent : Obligations.ExponentConditionIsSilent := by
  intro s hs
  refine ⟨fun hn hx => ?_, fun hn hx => exec_bit_of_image hs hn hx modExp_three_9,
    fun hn hx => exec_bit_of_image hs hn hx (modExp_zero_base odd_E.pos)⟩
  obtain hx | hx := hx
  · exact exec_bit_of_image hs hn hx modExp_three_2752557
  · exact exec_bit_of_image hs hn hx modExp_fifteen_2752557

/-! ### The stream repeats (rule R104) -/

/-- Once two residues agree, so do all that follow them. -/
theorem residueAt_add_congr {s : State} {i j : Nat} (h : s.residueAt i = s.residueAt j) (k : Nat) :
    s.residueAt (i + k) = s.residueAt (j + k) := by
  induction k with
  | zero => exact h
  | succ k ih => rw [← Nat.add_assoc, ← Nat.add_assoc, residueAt_succ, residueAt_succ, ih]

/-- Among the first `N + 1` residues, all below N, two agree. -/
theorem exists_residueAt_eq {s : State} (hx : s.x < s.n) : ∃ i j, i < j ∧ j ≤ s.n ∧ s.residueAt i = s.residueAt j := by
  have hcard : (Finset.range s.n).card < (Finset.range (s.n + 1)).card := by
    rw [Finset.card_range, Finset.card_range]
    exact Nat.lt_succ_self _
  have hmaps : Set.MapsTo s.residueAt (Finset.range (s.n + 1)) (Finset.range s.n) := fun k _ =>
    Finset.mem_coe.mpr (Finset.mem_range.mpr (residueAt_lt hx k))
  obtain ⟨i, hi, j, hj, hne, heq⟩ := Finset.exists_ne_map_eq_of_card_lt_of_maps_to hcard hmaps
  rw [Finset.mem_range] at hi hj
  obtain hlt | hlt := Nat.lt_or_gt_of_ne hne
  · exact ⟨i, j, hlt, by omega, heq⟩
  · exact ⟨j, i, hlt, by omega, heq.symm⟩

/-- The state map sends no two residues to one. -/
def StateMapInjective (n : Nat) : Prop :=
  ∀ x y, x < n → y < n → modExp x Config.E n = modExp y Config.E n → x = y

/-- An injective state map can be undone, so two residues that agree do so from the first on. -/
theorem residueAt_zero_of_eq {s : State} (hx : s.x < s.n) (hinj : StateMapInjective s.n) {p i : Nat}
    (h : s.residueAt (p + i) = s.residueAt i) : s.residueAt p = s.residueAt 0 := by
  induction i with
  | zero => exact h
  | succ i ih => exact ih (hinj _ _ (residueAt_lt hx _) (residueAt_lt hx _) h)

theorem residueAt_periodic {s : State} (hx : s.x < s.n) (hinj : StateMapInjective s.n) :
    ∃ p, 0 < p ∧ p ≤ s.n ∧ ∀ k, s.residueAt (p + k) = s.residueAt k := by
  obtain ⟨i, j, hlt, hle, heq⟩ := exists_residueAt_eq hx
  have hperiod : s.residueAt (j - i + i) = s.residueAt i := by rw [Nat.sub_add_cancel hlt.le, heq]
  refine ⟨j - i, by omega, by omega, fun k => ?_⟩
  rw [residueAt_add_congr (residueAt_zero_of_eq hx hinj hperiod) k, Nat.zero_add]

/-- Settles O19: by the pigeonhole principle, and by undoing the state map where that can be done. -/
theorem streamEventuallyPeriodic : Obligations.StreamEventuallyPeriodic := by
  intro s hs hinst
  obtain ⟨-, -, hx⟩ := hinst hs
  refine ⟨?_, fun hinj => residueAt_periodic hx hinj⟩
  obtain ⟨i, j, hlt, hle, heq⟩ := exists_residueAt_eq hx
  exact ⟨i, j, hlt, hle, residueAt_add_congr heq⟩

/-! ### Degenerate seeds (rule R105) -/

section FixedPoint

variable {s : State} (h : modExp s.x Config.E s.n = s.x)
include h

theorem residueAt_of_fixed (k : Nat) : s.residueAt k = s.x := by
  induction k with
  | zero => rfl
  | succ k ih => rw [residueAt_succ, ih, h]

theorem streamBit_of_fixed (k : Nat) : s.streamBit k = s.streamBit 0 := by
  rw [State.streamBit, State.streamBit, residueAt_of_fixed h k, residueAt_zero]

/-- At a fixed point every byte is eight copies of one bit. -/
theorem streamByte_of_fixed (i : Nat) : s.streamByte i = if s.streamBit 0 then 0xFF else 0x00 := by
  simp only [State.streamByte, streamBit_of_fixed h]
  cases s.streamBit 0
  · rfl
  · rfl

theorem streamBytes_of_fixed (k : Nat) :
    s.streamBytes k = List.replicate k (if s.streamBit 0 then 0xFF else 0x00) := by
  rw [State.streamBytes, List.map_congr_left fun i _ => streamByte_of_fixed h i, List.map_const', List.length_range]

/-- At a fixed point FILL leaves X and sends one byte over and over. -/
theorem exec_fill_of_fixed (hs : s.seeded = true) (len : LenField) :
    exec (.fill len) s = .next { s with
      sent := s.sent ++ List.replicate len.toNat (.byte (if s.streamBit 0 then 0xFF else 0x00)) ++
        [.response ⟨.ok, 0⟩] } := by
  rw [exec_fill_of_seeded hs rfl, runFill_eq, residueAt_of_fixed h, streamBytes_of_fixed h, List.map_replicate]

end FixedPoint

theorem streamBit_zero (s : State) : s.streamBit 0 = (s.x % 2 == 1) := by
  rw [State.streamBit, residueAt_zero]

/-- 0 and `N - 1` are fixed points, and even. -/
theorem exec_fill_of_even_fixed {s : State} (len : LenField) (hs : s.seeded = true) (hinst : s.InstanceOk)
    (hx : s.x = 0 ∨ s.x = s.n - 1) : exec (.fill len) s = .next { s with
      sent := s.sent ++ List.replicate len.toNat (.byte 0x00) ++ [.response ⟨.ok, 0⟩] } := by
  obtain ⟨hodd, hone, -⟩ := hinst hs
  have hfixed : modExp s.x Config.E s.n = s.x := by
    obtain hx | hx := hx
    · rw [hx, modExp_zero_base odd_E.pos]
    · rw [hx, modExp_pred_base hone odd_E]
  have hbit : s.streamBit 0 = false := by
    rw [streamBit_zero, beq_eq_false_iff_ne]
    omega
  rw [exec_fill_of_fixed hfixed hs, hbit]
  rfl

/-- 1 is a fixed point, and odd. -/
theorem exec_fill_of_one {s : State} (len : LenField) (hs : s.seeded = true) (hinst : s.InstanceOk) (hx : s.x = 1) :
    exec (.fill len) s = .next { s with
      sent := s.sent ++ List.replicate len.toNat (.byte 0xFF) ++ [.response ⟨.ok, 0⟩] } := by
  obtain ⟨-, hone, -⟩ := hinst hs
  have hfixed : modExp s.x Config.E s.n = s.x := by rw [hx, modExp_one_base hone]
  have hbit : s.streamBit 0 = true := by rw [streamBit_zero, hx]; rfl
  rw [exec_fill_of_fixed hfixed hs, hbit, if_pos rfl]

/-- A common divisor of X and N divides every later residue. -/
theorem dvd_residueAt {s : State} {p : Nat} (hn : p ∣ s.n) (hx : p ∣ s.x) (k : Nat) : p ∣ s.residueAt k := by
  induction k with
  | zero => exact hx
  | succ k ih =>
    rw [residueAt_succ, modExp, Nat.dvd_mod_iff hn]
    exact dvd_pow ih odd_E.pos.ne'

/-- Numbers that agree modulo every prime of a squarefree modulus agree modulo it. -/
theorem modEq_of_squarefree {a b n : Nat} (hn : Squarefree n) (h : ∀ p, p.Prime → p ∣ n → a ≡ b [MOD p]) :
    a ≡ b [MOD n] := by
  rw [Nat.modEq_iff_dvd, Int.natCast_dvd, ← Nat.prod_primeFactors_of_squarefree hn]
  refine Finset.prod_primes_dvd _ (fun p hp => (Nat.prime_of_mem_primeFactors hp).prime) fun p hp => ?_
  have hmod := h p (Nat.prime_of_mem_primeFactors hp) (Nat.dvd_of_mem_primeFactors hp)
  rwa [Nat.modEq_iff_dvd, Int.natCast_dvd] at hmod

/-- Fermat: an exponent that is 1 modulo `p - 1` fixes every residue of a prime `p`. -/
theorem pow_succ_modEq_self {p d : Nat} (hp : p.Prime) (hd : (p - 1) ∣ d) (x : Nat) : x ^ (d + 1) ≡ x [MOD p] := by
  have := Fact.mk hp
  obtain ⟨m, rfl⟩ := hd
  rw [← ZMod.natCast_eq_natCast_iff, Nat.cast_pow]
  by_cases hx : (x : ZMod p) = 0
  · rw [hx, zero_pow (Nat.succ_ne_zero _)]
  · rw [pow_succ, pow_mul, ZMod.pow_card_sub_one_eq_one hx, one_pow, one_mul]

/-- Where 65537 is 1 modulo `p - 1` for every prime `p` of a squarefree N, every residue is a fixed point. -/
theorem modExp_E_of_squarefree {n x : Nat} (hn : Squarefree n) (hprimes : ∀ p, p.Prime → p ∣ n → (p - 1) ∣ 65536)
    (hx : x < n) : modExp x Config.E n = x := by
  have hE : Config.E = 65536 + 1 := rfl
  have hpow : x ^ (65536 + 1) ≡ x [MOD n] :=
    modEq_of_squarefree hn fun p hp hd => pow_succ_modEq_self hp (hprimes p hp hd) x
  rw [modExp, hE, hpow, Nat.mod_eq_of_lt hx]

/-- Settles O20: the fixed points, the common divisor, and the moduli where every residue is a fixed point. -/
theorem degenerateResidues : Obligations.DegenerateResidues := by
  refine ⟨fun s len => exec_fill_of_even_fixed len, fun s len => exec_fill_of_one len,
    fun s p hn hx => dvd_residueAt hn hx, fun s hinst hs hsquarefree hprimes => ?_⟩
  obtain ⟨-, -, hx⟩ := hinst hs
  exact residueAt_of_fixed (modExp_E_of_squarefree hsquarefree hprimes hx)

/-! ### The exponent condition (rule R106)

An exponent `e` stands for 65537 here: nothing but its being prime is used. -/

section ExponentCondition

variable {p q e : Nat}

/-- Modulo a prime `p`, an exponent coprime to `p - 1` has an inverse, so powers to it determine their base. -/
theorem modEq_of_pow_modEq (hp : p.Prime) (he : (p - 1).Coprime e) {x y : Nat} (h : x ^ e ≡ y ^ e [MOD p])
    (he0 : e ≠ 0) : x ≡ y [MOD p] := by
  have := Fact.mk hp
  rw [← ZMod.natCast_eq_natCast_iff, Nat.cast_pow, Nat.cast_pow] at h
  rw [← ZMod.natCast_eq_natCast_iff]
  generalize (x : ZMod p) = a at h
  generalize (y : ZMod p) = b at h
  by_cases ha : a = 0
  · rw [ha, zero_pow he0] at h
    rw [ha, pow_eq_zero_iff he0 |>.mp h.symm]
  by_cases hb : b = 0
  · rw [hb, zero_pow he0] at h
    exact absurd (pow_eq_zero_iff he0 |>.mp h) ha
  have hcard : (Nat.card (ZMod p)ˣ).Coprime e := by rwa [Nat.card_eq_fintype_card, ZMod.card_units]
  have hunits : Units.mk0 a ha = Units.mk0 b hb := (powCoprime hcard).injective (Units.ext h)
  exact congrArg Units.val hunits

/-- Modulo a prime `p`, a prime exponent that divides `p - 1` sends a number other than 1 to 1 (Cauchy). -/
theorem exists_pow_modEq_one (hp : p.Prime) (he : e.Prime) (hd : e ∣ p - 1) :
    ∃ a : Nat, ¬ a ≡ 1 [MOD p] ∧ a ^ e ≡ 1 [MOD p] := by
  have := Fact.mk hp
  have := Fact.mk he
  have hcard : e ∣ Fintype.card (ZMod p)ˣ := by rwa [ZMod.card_units]
  obtain ⟨u, hu⟩ := exists_prime_orderOf_dvd_card e hcard
  have hval : ((u : ZMod p).val : ZMod p) = u := ZMod.natCast_zmod_val _
  refine ⟨(u : ZMod p).val, fun hone => ?_, ?_⟩
  · rw [← ZMod.natCast_eq_natCast_iff, hval, Nat.cast_one, Units.val_eq_one] at hone
    rw [hone, orderOf_one] at hu
    exact he.ne_one hu.symm
  · rw [← ZMod.natCast_eq_natCast_iff, Nat.cast_pow, hval, Nat.cast_one, ← Units.val_pow_eq_pow_val, ← hu,
      pow_orderOf_eq_one, Units.val_one]

/-- Coprime to both `p - 1` and `q - 1`: powers determine their base modulo p and q, hence modulo p q. -/
theorem injOn_modExp (hp : p.Prime) (hq : q.Prime) (hpq : p ≠ q) (he : e ≠ 0) (hep : (p - 1).Coprime e)
    (heq : (q - 1).Coprime e) : Set.InjOn (fun x => modExp x e (p * q)) (Set.Iio (p * q)) := by
  intro x hx y hy h
  have hcop : p.Coprime q := (Nat.coprime_primes hp hq).mpr hpq
  have hpow : x ^ e ≡ y ^ e [MOD p * q] := h
  obtain ⟨hmodp, hmodq⟩ := (Nat.modEq_and_modEq_iff_modEq_mul hcop).mpr hpow
  have hmod : x ≡ y [MOD p * q] := (Nat.modEq_and_modEq_iff_modEq_mul hcop).mp
    ⟨modEq_of_pow_modEq hp hep hmodp he, modEq_of_pow_modEq hq heq hmodq he⟩
  exact hmod.eq_of_lt_of_lt hx hy

/-- A prime exponent that divides `p - 1` sends to 1 a residue that is not 1 modulo p, and is 1 modulo q. -/
theorem not_injOn_modExp_of_dvd (hp : p.Prime) (hq : q.Prime) (hpq : p ≠ q) (he : e.Prime) (hd : e ∣ p - 1) :
    ¬ Set.InjOn (fun x => modExp x e (p * q)) (Set.Iio (p * q)) := by
  intro hinj
  have hcop : p.Coprime q := (Nat.coprime_primes hp hq).mpr hpq
  obtain ⟨a, hne, hpow⟩ := exists_pow_modEq_one hp he hd
  obtain ⟨x, hlt, hxp, hxq⟩ : ∃ x, x < p * q ∧ x ≡ a [MOD p] ∧ x ≡ 1 [MOD q] :=
    ⟨Nat.chineseRemainder hcop a 1, Nat.chineseRemainder_lt_mul hcop a 1 hp.ne_zero hq.ne_zero,
      (Nat.chineseRemainder hcop a 1).2⟩
  have hone : x ^ e ≡ 1 ^ e [MOD p * q] := by
    refine (Nat.modEq_and_modEq_iff_modEq_mul hcop).mp ⟨?_, hxq.pow e⟩
    rw [one_pow]
    exact (hxp.pow e).trans hpow
  have heq : x = 1 := hinj hlt (Nat.one_lt_mul_iff.mpr ⟨hp.pos, hq.pos, .inl hp.one_lt⟩) hone
  exact hne (heq ▸ hxp.symm)

/-- The exponent condition for a prime exponent. -/
theorem coprime_lcm_iff (he : e.Prime) (a b : Nat) : Nat.gcd e (Nat.lcm a b) = 1 ↔ a.Coprime e ∧ b.Coprime e := by
  rw [Nat.coprime_comm (n := a), Nat.coprime_comm (n := b), ← Nat.coprime_iff_gcd_eq_one, he.coprime_iff_not_dvd,
    he.coprime_iff_not_dvd, he.coprime_iff_not_dvd, he.dvd_lcm, not_or]

theorem bijOn_modExp_iff (hp : p.Prime) (hq : q.Prime) (hpq : p ≠ q) (he : e.Prime) :
    Set.BijOn (fun x => modExp x e (p * q)) (Set.Iio (p * q)) (Set.Iio (p * q)) ↔
      Nat.gcd e (Nat.lcm (p - 1) (q - 1)) = 1 := by
  have hmaps : Set.MapsTo (fun x => modExp x e (p * q)) (Set.Iio (p * q)) (Set.Iio (p * q)) := fun _ _ =>
    modExp_lt (Nat.mul_pos hp.pos hq.pos)
  rw [← (Set.finite_Iio _).injOn_iff_bijOn_of_mapsTo hmaps, coprime_lcm_iff he]
  refine ⟨fun hinj => ?_, fun ⟨hep, heq⟩ => injOn_modExp hp hq hpq he.ne_zero hep heq⟩
  rw [Nat.coprime_comm, he.coprime_iff_not_dvd, Nat.coprime_comm, he.coprime_iff_not_dvd]
  refine ⟨fun hd => not_injOn_modExp_of_dvd hp hq hpq he hd hinj, fun hd => ?_⟩
  rw [Nat.mul_comm] at hinj
  exact not_injOn_modExp_of_dvd hq hp hpq.symm he hd hinj

/-- Modulo p p both 0 and p are sent to 0. -/
theorem not_injOn_modExp_sq (hp : p.Prime) (he : 2 ≤ e) :
    ¬ Set.InjOn (fun x => modExp x e (p * p)) (Set.Iio (p * p)) := by
  intro hinj
  have hpow : modExp p e (p * p) = 0 := by
    rw [modExp, ← sq]
    exact Nat.mod_eq_zero_of_dvd (pow_dvd_pow p he)
  have hlt : p < p * p := (Nat.lt_mul_iff_one_lt_right hp.pos).mpr hp.one_lt
  have heq := hinj hlt (Nat.mul_pos hp.pos hp.pos) (hpow.trans (modExp_zero_base (by omega)).symm)
  exact hp.ne_zero heq

end ExponentCondition

theorem prime_E : Nat.Prime Config.E := by
  rw [Config.E]
  norm_num

/-- Settles O22: 65537 is prime, and an injective state map makes the stream periodic. -/
theorem exponentConditionDecidesPermutation : Obligations.ExponentConditionDecidesPermutation := by
  refine ⟨fun p q hp hq hpq => bijOn_modExp_iff hp hq hpq prime_E, fun s p q hp hq hpq hn hs hinst hcond => ?_,
    fun p hp => not_injOn_modExp_sq hp prime_E.two_le⟩
  obtain ⟨-, -, hx⟩ := hinst hs
  have hinj := ((bijOn_modExp_iff hp hq hpq prime_E).mpr hcond).injOn
  rw [← hn] at hinj
  exact residueAt_periodic hx fun x y hx hy h => hinj hx hy h

end Sys2Proof.Machine
